-- ==== Sys2Proof/Word.lean ====
section
/-! DEFINITION. The two word types of the machine: bytes and 24-bit instruction words (spec/00_scope.md R6). -/

namespace Sys2Proof

/-- A general register, a data-memory cell, an operand field, the program counter: 8 bits (R6, R21, R24, R33). -/
abbrev Byte := BitVec 8

/-- An instruction word, as program memory and the instruction register hold it: exactly 24 bits (R28, R80). -/
abbrev Word := BitVec 24

end Sys2Proof
end

