-- ==== Sys2Proof/Config.lean ====
section
/-! DEFINITION. The parameters of spec/00_scope.md R6. What the source fixes is a number here (the sizes). What the spec
decided with a default, and asks a model to take as a configuration field, is a field of `Config`, which every function of
the machine that depends on it takes as an argument; the defaults are `defaultConfig` in Sys2Proof/Decode.lean. What the
spec leaves OPEN, the program and its length, is data of the state (`State.pm`, `State.launch`). -/

namespace Sys2Proof

/-- `NREG`, the number of general registers (R6, R21). -/
abbrev Config.nreg : Nat := 32

/-- `DMEM_SIZE`, the number of data-memory bytes; addresses are 0 to 1999 (R6, R33). -/
abbrev Config.dmemSize : Nat := 2000

/-- The most words program memory can hold: it is indexed by an 8-bit counter (R32, spec decision D6). -/
abbrev Config.maxProgLen : Nat := 256

/-- The mnemonics of spec/opcode_table.json (R86): six implemented, twenty-nine that the default configuration declares
without an implementation. A configuration may declare others beside them (`FurtherMnemonic`). -/
inductive Mnemonic where
  | NOP | JMP | LDI | MOV | IN | OUT
  | STS | LDS
  | AND | ANDI | OR | ORI | XOR | XORI | CLR
  | ADD | ADDI | SUB | SUBI | INC | DEC
  | CP | CPI
  | BREQ | BRNE | BRGE | BRGT | BRLE | BRLT
  | CALL | RET
  | PUSH | POP
  | SEI | CLI
deriving DecidableEq, Repr

/-- The five named bits of the status register (spec/10_state.md R25). -/
inductive StatusBit where
  | carry
  | overflow
  | zero
  | negative
  | interrupt
deriving DecidableEq, Repr

/-- The cycle state (spec/10_state.md R31). -/
inductive CycleState where
  | fetch
  | decode
  | execute
deriving DecidableEq, Repr

/-- The six rows of the list of outcomes, which the event codes number (spec/60_exceptions.md R210). -/
inductive EventKind where
  | none
  | unknownOpcode
  | unimplemented
  | progFetch
  | regIndex
  | dataAddr
deriving DecidableEq, Repr

/-- A declared-but-unimplemented mnemonic beyond the thirty-five of the table, with its opcode value: the declared set is a
parameter, and only twelve of its names are fixed (R6, spec decision D2). -/
structure FurtherMnemonic where
  /-- The canonical mnemonic (R93). -/
  name : String
  /-- Its value under `OPC` (R86). -/
  value : Byte
deriving DecidableEq, Repr

/-- The parameters of the step function and of the display that the spec decided with a default (R6, R34). -/
structure Config where
  /-- `OPC`, the opcode map, on the mnemonics of the table (R86, spec decision D1). -/
  opc : Mnemonic → Byte
  /-- `DECLARED`, as far as the table's mnemonics go (R86, spec decision D2). One outside it has no opcode value. -/
  declared : Mnemonic → Bool
  /-- The rest of `DECLARED`, with its values under `OPC`. -/
  further : List FurtherMnemonic
  /-- Address of the data-direction cell DDRB (R58, spec decision D9). -/
  ddrb : Byte
  /-- Address of the port cell PORTB (R58, spec decision D9). -/
  portb : Byte
  /-- Address of the pin cell PINB (R58, spec decision D9). -/
  pinb : Byte
  /-- `SR_C`, `SR_V`, `SR_Z`, `SR_N`, `SR_I`, the status-bit positions (R25, spec decision D8). -/
  statusPosition : StatusBit → Fin 5
  /-- `CS_FETCH`, `CS_DECODE`, `CS_EXECUTE`, the encoding of the cycle state (R31, spec decision D10). -/
  cycleCode : CycleState → BitVec 2
  /-- The numbering of the outcomes (R210, spec decision D11). -/
  eventCode : EventKind → BitVec 3

end Sys2Proof
end

