-- ==== Sys2Proof/Syntax.lean ====
section
/-! DEFINITION. The instructions of the machine: one constructor per row of spec/opcode_table.json, in its order. Every
instruction has the two 8-bit operand fields of format W24 (spec/30_encoding.md R80 to R83); a field the hardware
ignores is kept, because Decode still copies it and snapshot still shows it (R84). -/

namespace Sys2Proof

/-- An instruction: the mnemonic and its two operand fields, `operand1` first (R83 gives their roles). -/
inductive Instr where
  -- control (spec/42_control.md)
  | nop (ignored1 ignored2 : Byte)
  | jmp (target ignored : Byte)
  -- data transfer (spec/41_transfer.md)
  | ldi (d k : Byte)
  | mov (d r : Byte)
  | in_ (d a : Byte)
  | out (a r : Byte)
  -- declared but unimplemented (spec/43_declared_unimplemented.md): memory
  | sts (a b : Byte)
  | lds (a b : Byte)
  -- logical
  | and (a b : Byte)
  | andi (a b : Byte)
  | or (a b : Byte)
  | ori (a b : Byte)
  | xor (a b : Byte)
  | xori (a b : Byte)
  | clr (a b : Byte)
  -- arithmetic
  | add (a b : Byte)
  | addi (a b : Byte)
  | sub (a b : Byte)
  | subi (a b : Byte)
  | inc (a b : Byte)
  | dec (a b : Byte)
  -- compare
  | cp (a b : Byte)
  | cpi (a b : Byte)
  -- branch
  | breq (a b : Byte)
  | brne (a b : Byte)
  | brge (a b : Byte)
  | brgt (a b : Byte)
  | brle (a b : Byte)
  | brlt (a b : Byte)
  -- call/return
  | call (a b : Byte)
  | ret (a b : Byte)
  -- stack
  | push (a b : Byte)
  | pop (a b : Byte)
  -- interrupt-enable
  | sei (a b : Byte)
  | cli (a b : Byte)
deriving DecidableEq, Repr

end Sys2Proof
end

