-- ==== Sys2Proof/Decode.lean ====
section
/-! DEFINITION. The default configuration, and the decoder and the encoder of the 24-bit instruction word
(spec/30_encoding.md). The opcode map and the declared set are parameters of both (`decodeWith`, `encodeWith`), as R86
asks of a model; `decode` and `encode` use the default configuration. -/

namespace Sys2Proof

/-! ## The default configuration -/

/-- `OPC`, the default opcode map: the table of R86. -/
def opc : Mnemonic → Byte
  | .NOP => 0x00
  | .JMP => 0x01
  | .LDI => 0x02
  | .MOV => 0x03
  | .IN => 0x04
  | .OUT => 0x05
  | .STS => 0x06
  | .LDS => 0x07
  | .AND => 0x08
  | .ANDI => 0x09
  | .OR => 0x0A
  | .ORI => 0x0B
  | .XOR => 0x0C
  | .XORI => 0x0D
  | .CLR => 0x0E
  | .ADD => 0x0F
  | .ADDI => 0x10
  | .SUB => 0x11
  | .SUBI => 0x12
  | .INC => 0x13
  | .DEC => 0x14
  | .CP => 0x15
  | .CPI => 0x16
  | .BREQ => 0x17
  | .BRNE => 0x18
  | .BRGE => 0x19
  | .BRGT => 0x1A
  | .BRLE => 0x1B
  | .BRLT => 0x1C
  | .CALL => 0x1D
  | .RET => 0x1E
  | .PUSH => 0x1F
  | .POP => 0x20
  | .SEI => 0x21
  | .CLI => 0x22

/-- The mnemonics in the order of R86's table. -/
def Mnemonic.all : List Mnemonic :=
  [.NOP, .JMP, .LDI, .MOV, .IN, .OUT,
   .STS, .LDS, .AND, .ANDI, .OR, .ORI, .XOR, .XORI, .CLR,
   .ADD, .ADDI, .SUB, .SUBI, .INC, .DEC,
   .CP, .CPI, .BREQ, .BRNE, .BRGE, .BRGT, .BRLE, .BRLT,
   .CALL, .RET, .PUSH, .POP, .SEI, .CLI]

/-- The six implemented mnemonics; the other declared ones are unimplemented (R85). -/
def Mnemonic.implemented : Mnemonic → Bool
  | .NOP | .JMP | .LDI | .MOV | .IN | .OUT => true
  | .STS | .LDS | .AND | .ANDI | .OR | .ORI | .XOR | .XORI | .CLR | .ADD | .ADDI | .SUB | .SUBI | .INC | .DEC
  | .CP | .CPI | .BREQ | .BRNE | .BRGE | .BRGT | .BRLE | .BRLT | .CALL | .RET | .PUSH | .POP | .SEI | .CLI => false

/-- The twelve mnemonics the source names (R86); the other twenty-three are the spec's choice (spec decision D2). -/
def Mnemonic.named : Mnemonic → Bool
  | .NOP | .JMP | .LDI | .MOV | .IN | .OUT | .STS | .LDS | .CALL | .RET | .PUSH | .POP => true
  | .AND | .ANDI | .OR | .ORI | .XOR | .XORI | .CLR | .ADD | .ADDI | .SUB | .SUBI | .INC | .DEC | .CP | .CPI
  | .BREQ | .BRNE | .BRGE | .BRGT | .BRLE | .BRLT | .SEI | .CLI => false

/-- The canonical mnemonic (R86, R93). -/
def mnemonicName : Mnemonic → String
  | .NOP => "NOP"
  | .JMP => "JMP"
  | .LDI => "LDI"
  | .MOV => "MOV"
  | .IN => "IN"
  | .OUT => "OUT"
  | .STS => "STS"
  | .LDS => "LDS"
  | .AND => "AND"
  | .ANDI => "ANDI"
  | .OR => "OR"
  | .ORI => "ORI"
  | .XOR => "XOR"
  | .XORI => "XORI"
  | .CLR => "CLR"
  | .ADD => "ADD"
  | .ADDI => "ADDI"
  | .SUB => "SUB"
  | .SUBI => "SUBI"
  | .INC => "INC"
  | .DEC => "DEC"
  | .CP => "CP"
  | .CPI => "CPI"
  | .BREQ => "BREQ"
  | .BRNE => "BRNE"
  | .BRGE => "BRGE"
  | .BRGT => "BRGT"
  | .BRLE => "BRLE"
  | .BRLT => "BRLT"
  | .CALL => "CALL"
  | .RET => "RET"
  | .PUSH => "PUSH"
  | .POP => "POP"
  | .SEI => "SEI"
  | .CLI => "CLI"

/-- The default status-bit positions: Carry 0, Overflow 1, Zero 2, Negative 3, Interrupt 4 (R25). -/
def statusPosition : StatusBit → Fin 5
  | .carry => 0
  | .overflow => 1
  | .zero => 2
  | .negative => 3
  | .interrupt => 4

/-- The default encoding of the cycle state: Fetch 0, Decode 1, Execute 2 (R31). -/
def cycleCode : CycleState → BitVec 2
  | .fetch => 0
  | .decode => 1
  | .execute => 2

/-- The default event codes (R210). -/
def eventCode : EventKind → BitVec 3
  | .none => 0
  | .unknownOpcode => 1
  | .unimplemented => 2
  | .progFetch => 3
  | .regIndex => 4
  | .dataAddr => 5

/-- Every parameter at its default value (R6). -/
def defaultConfig : Config where
  opc := opc
  declared := fun _ => true
  further := []
  ddrb := 0x00
  portb := 0x01
  pinb := 0x02
  statusPosition := statusPosition
  cycleCode := cycleCode
  eventCode := eventCode

/-- What a configuration must meet. The twelve mnemonics the source names are declared (R6). `OPC` is a map on the declared
mnemonics, so that a name stands for one of them, and it is injective (R6, R86). DEDUCED (log 6): the I/O cells, the
positions and the codes differ among themselves, naming different things. -/
def Config.Ok (c : Config) : Prop :=
  (∀ m : Mnemonic, m.named = true → c.declared m = true) ∧
  (∀ m n : Mnemonic, c.declared m = true → c.declared n = true → c.opc m = c.opc n → m = n) ∧
  (∀ (m : Mnemonic) (f : FurtherMnemonic), f ∈ c.further → mnemonicName m ≠ f.name) ∧
  (∀ (m : Mnemonic) (f : FurtherMnemonic), c.declared m = true → f ∈ c.further → c.opc m ≠ f.value) ∧
  (∀ f g : FurtherMnemonic, f ∈ c.further → g ∈ c.further → f.name = g.name ∨ f.value = g.value → f = g) ∧
  c.ddrb ≠ c.portb ∧ c.ddrb ≠ c.pinb ∧ c.portb ≠ c.pinb ∧
  Function.Injective c.statusPosition ∧ Function.Injective c.cycleCode ∧ Function.Injective c.eventCode

/-! ## The class of an opcode value -/

/-- The three classes of R85, the middle one apart: a declared mnemonic of the table, implemented or not; a further declared
mnemonic, which is not implemented; an undeclared value. -/
inductive OpcodeClass where
  | instruction (m : Mnemonic)
  | further (name : String)
  | undeclared
deriving DecidableEq, Repr

/-- The declared mnemonic of the table that a configuration gives an opcode value, if there is one (R85). -/
def mnemonicOf (c : Config) (op : Byte) : Option Mnemonic :=
  Mnemonic.all.find? (fun m => c.declared m && c.opc m == op)

/-- The further declared mnemonic that a configuration gives an opcode value, if there is one (R85). -/
def furtherOf (c : Config) (op : Byte) : Option FurtherMnemonic := c.further.find? (fun f => f.value == op)

/-- The classification of an opcode, by its value alone (R85, R88). -/
def classOf (c : Config) (op : Byte) : OpcodeClass :=
  match mnemonicOf c op with
  | some m => .instruction m
  | none =>
    match furtherOf c op with
    | some f => .further f.name
    | none => .undeclared

/-- The opcode value belongs to no declared mnemonic (R85). -/
def Undeclared (c : Config) (op : Byte) : Prop :=
  (∀ m : Mnemonic, c.declared m = true → c.opc m ≠ op) ∧ ∀ f : FurtherMnemonic, f ∈ c.further → f.value ≠ op

/-! ## The fields of a word -/

/-- `opcode`, bits 23 to 16 (R81). -/
def opcodeField (w : Word) : Byte := w.extractLsb' 16 8

/-- `operand1`, bits 15 to 8 (R81). -/
def operand1Field (w : Word) : Byte := w.extractLsb' 8 8

/-- `operand2`, bits 7 to 0 (R81). -/
def operand2Field (w : Word) : Byte := w.extractLsb' 0 8

/-- The word with the given three fields: its value is `opcode * 65536 + operand1 * 256 + operand2` (R81). -/
def packWord (op a b : Byte) : Word := BitVec.ofNat 24 (op.toNat * 65536 + a.toNat * 256 + b.toNat)

/-! ## Decoding -/

/-- Why a word is no instruction of the table. Operand values never make an instruction undeclared (R88), so the two reasons
for a word go by its opcode; the third is for a byte string that is not one word long. -/
inductive DecodeError where
  /-- The opcode field holds no declared value (R85, R87): at Execute the machine resets and raises UnknownOpcode. -/
  | unknownOpcode (op : Byte)
  /-- The opcode field holds the value of a declared mnemonic beyond the table: at Execute it raises Unimplemented like every
  declared-but-unimplemented one (R85, R150). -/
  | furtherMnemonic (name : String)
  /-- A byte string of this length is not one instruction word of three bytes (R54, R80). -/
  | notOneWord (length : Nat)
deriving DecidableEq, Repr

/-- The instruction with the given mnemonic and operand fields. -/
def Instr.make : Mnemonic → Byte → Byte → Instr
  | .NOP, a, b => .nop a b
  | .JMP, a, b => .jmp a b
  | .LDI, a, b => .ldi a b
  | .MOV, a, b => .mov a b
  | .IN, a, b => .in_ a b
  | .OUT, a, b => .out a b
  | .STS, a, b => .sts a b
  | .LDS, a, b => .lds a b
  | .AND, a, b => .and a b
  | .ANDI, a, b => .andi a b
  | .OR, a, b => .or a b
  | .ORI, a, b => .ori a b
  | .XOR, a, b => .xor a b
  | .XORI, a, b => .xori a b
  | .CLR, a, b => .clr a b
  | .ADD, a, b => .add a b
  | .ADDI, a, b => .addi a b
  | .SUB, a, b => .sub a b
  | .SUBI, a, b => .subi a b
  | .INC, a, b => .inc a b
  | .DEC, a, b => .dec a b
  | .CP, a, b => .cp a b
  | .CPI, a, b => .cpi a b
  | .BREQ, a, b => .breq a b
  | .BRNE, a, b => .brne a b
  | .BRGE, a, b => .brge a b
  | .BRGT, a, b => .brgt a b
  | .BRLE, a, b => .brle a b
  | .BRLT, a, b => .brlt a b
  | .CALL, a, b => .call a b
  | .RET, a, b => .ret a b
  | .PUSH, a, b => .push a b
  | .POP, a, b => .pop a b
  | .SEI, a, b => .sei a b
  | .CLI, a, b => .cli a b

/-- The instruction the three decoded fields stand for: classification by the opcode field alone (R85, R88). -/
def decodeFields (c : Config) (op a b : Byte) : Except DecodeError Instr :=
  match classOf c op with
  | .instruction m => .ok (Instr.make m a b)
  | .further name => .error (.furtherMnemonic name)
  | .undeclared => .error (.unknownOpcode op)

/-- The decoder: total on every word, rejecting an undeclared opcode by name (R88). -/
def decodeWith (c : Config) (w : Word) : Except DecodeError Instr :=
  decodeFields c (opcodeField w) (operand1Field w) (operand2Field w)

/-- The decoder under the default configuration. -/
def decode (w : Word) : Except DecodeError Instr := decodeWith defaultConfig w

/-! ## Words as bytes (a convention for tools, R54: opcode, operand1, operand2) -/

/-- The three bytes of a word, most significant first (R54). -/
def wordBytes (w : Word) : List Byte := [opcodeField w, operand1Field w, operand2Field w]

/-- The word three bytes spell (R54); any other number of bytes is no word (R80). -/
def wordOfBytes : List Byte → Except DecodeError Word
  | [op, a, b] => .ok (packWord op a b)
  | bytes => .error (.notOneWord bytes.length)

/-- Decoding a byte string, total on any bytes. -/
def decodeBytes (bytes : List Byte) : Except DecodeError Instr :=
  match wordOfBytes bytes with
  | .ok w => decode w
  | .error e => .error e

/-- The instruction the decoder reads from a table row's word: bit 0 of `w` is bit 0 of the word, and the bits at and
above `nbits` are 0. -/
def decodeTableWord (nbits w : Nat) : Option Instr :=
  match decode (BitVec.ofNat 24 (w % 2 ^ nbits)) with
  | .ok i => some i
  | .error _ => none

/-! ## Encoding -/

/-- The mnemonic of an instruction: its row of the opcode table. -/
def Instr.mnemonic : Instr → Mnemonic
  | .nop _ _ => .NOP
  | .jmp _ _ => .JMP
  | .ldi _ _ => .LDI
  | .mov _ _ => .MOV
  | .in_ _ _ => .IN
  | .out _ _ => .OUT
  | .sts _ _ => .STS
  | .lds _ _ => .LDS
  | .and _ _ => .AND
  | .andi _ _ => .ANDI
  | .or _ _ => .OR
  | .ori _ _ => .ORI
  | .xor _ _ => .XOR
  | .xori _ _ => .XORI
  | .clr _ _ => .CLR
  | .add _ _ => .ADD
  | .addi _ _ => .ADDI
  | .sub _ _ => .SUB
  | .subi _ _ => .SUBI
  | .inc _ _ => .INC
  | .dec _ _ => .DEC
  | .cp _ _ => .CP
  | .cpi _ _ => .CPI
  | .breq _ _ => .BREQ
  | .brne _ _ => .BRNE
  | .brge _ _ => .BRGE
  | .brgt _ _ => .BRGT
  | .brle _ _ => .BRLE
  | .brlt _ _ => .BRLT
  | .call _ _ => .CALL
  | .ret _ _ => .RET
  | .push _ _ => .PUSH
  | .pop _ _ => .POP
  | .sei _ _ => .SEI
  | .cli _ _ => .CLI

/-- The first operand field. -/
def Instr.operand1 : Instr → Byte
  | .nop a _ => a
  | .jmp a _ => a
  | .ldi a _ => a
  | .mov a _ => a
  | .in_ a _ => a
  | .out a _ => a
  | .sts a _ => a
  | .lds a _ => a
  | .and a _ => a
  | .andi a _ => a
  | .or a _ => a
  | .ori a _ => a
  | .xor a _ => a
  | .xori a _ => a
  | .clr a _ => a
  | .add a _ => a
  | .addi a _ => a
  | .sub a _ => a
  | .subi a _ => a
  | .inc a _ => a
  | .dec a _ => a
  | .cp a _ => a
  | .cpi a _ => a
  | .breq a _ => a
  | .brne a _ => a
  | .brge a _ => a
  | .brgt a _ => a
  | .brle a _ => a
  | .brlt a _ => a
  | .call a _ => a
  | .ret a _ => a
  | .push a _ => a
  | .pop a _ => a
  | .sei a _ => a
  | .cli a _ => a

/-- The second operand field. -/
def Instr.operand2 : Instr → Byte
  | .nop _ b => b
  | .jmp _ b => b
  | .ldi _ b => b
  | .mov _ b => b
  | .in_ _ b => b
  | .out _ b => b
  | .sts _ b => b
  | .lds _ b => b
  | .and _ b => b
  | .andi _ b => b
  | .or _ b => b
  | .ori _ b => b
  | .xor _ b => b
  | .xori _ b => b
  | .clr _ b => b
  | .add _ b => b
  | .addi _ b => b
  | .sub _ b => b
  | .subi _ b => b
  | .inc _ b => b
  | .dec _ b => b
  | .cp _ b => b
  | .cpi _ b => b
  | .breq _ b => b
  | .brne _ b => b
  | .brge _ b => b
  | .brgt _ b => b
  | .brle _ b => b
  | .brlt _ b => b
  | .call _ b => b
  | .ret _ b => b
  | .push _ b => b
  | .pop _ b => b
  | .sei _ b => b
  | .cli _ b => b

/-- The word of an instruction: the opcode value of its mnemonic, then the fields as they stand (R81, R82). -/
def encodeWith (c : Config) (i : Instr) : Word := packWord (c.opc i.mnemonic) i.operand1 i.operand2

/-- The word of an instruction under the default configuration. -/
def encode (i : Instr) : Word := encodeWith defaultConfig i

/-- The word of a further declared mnemonic: its opcode value, then both fields as written (R81, R90). -/
def FurtherMnemonic.encode (f : FurtherMnemonic) (a b : Byte) : Word := packWord f.value a b

/-- The instruction an assembler writes: 0x00 in a field that is ignored, for NOP both and for JMP the second (R91). A
declared-but-unimplemented mnemonic has both fields written as given (R90). -/
def Instr.canonical : Instr → Instr
  | .nop _ _ => .nop 0 0
  | .jmp t _ => .jmp t 0
  | .ldi a b => .ldi a b
  | .mov a b => .mov a b
  | .in_ a b => .in_ a b
  | .out a b => .out a b
  | .sts a b => .sts a b
  | .lds a b => .lds a b
  | .and a b => .and a b
  | .andi a b => .andi a b
  | .or a b => .or a b
  | .ori a b => .ori a b
  | .xor a b => .xor a b
  | .xori a b => .xori a b
  | .clr a b => .clr a b
  | .add a b => .add a b
  | .addi a b => .addi a b
  | .sub a b => .sub a b
  | .subi a b => .subi a b
  | .inc a b => .inc a b
  | .dec a b => .dec a b
  | .cp a b => .cp a b
  | .cpi a b => .cpi a b
  | .breq a b => .breq a b
  | .brne a b => .brne a b
  | .brge a b => .brge a b
  | .brgt a b => .brgt a b
  | .brle a b => .brle a b
  | .brlt a b => .brlt a b
  | .call a b => .call a b
  | .ret a b => .ret a b
  | .push a b => .push a b
  | .pop a b => .pop a b
  | .sei a b => .sei a b
  | .cli a b => .cli a b

end Sys2Proof
end

