-- ==== Sys2Proof/Machine/Memory.lean ====
section
/-! DEFINITION. Data memory as plain data: the cells that hold something other than 0x00, addresses strictly rising
(spec/10_state.md R33, spec/20_memory.md R50). Reading and writing here are those of one cell; the range 0..1999 is
checked by `State.memRead` and `State.memWrite`. -/

namespace Sys2Proof.Machine

/-- A byte-addressed memory: its non-zero cells in rising order. -/
abbrev Memory := List Host.Cell

/-- What an address that is not listed reads as: 0x00, the value reset gives every data byte (R33, R36). -/
def unlistedByte : Byte := 0x00

/-- The byte at an address. -/
def Memory.read : Memory → Nat → Byte
  | [], _ => unlistedByte
  | (k, v) :: rest, a => if k = a then v else Memory.read rest a

/-- Puts a byte in front of a memory whose addresses all lie above: nothing is listed for the unlisted value. -/
def Memory.put (a : Nat) (v : Byte) (rest : Memory) : Memory :=
  if v = unlistedByte then rest else (a, v) :: rest

/-- Stores one byte, keeping the canonical form. -/
def Memory.write : Memory → Nat → Byte → Memory
  | [], a, v => Memory.put a v []
  | (k, w) :: rest, a, v =>
    if a < k then Memory.put a v ((k, w) :: rest)
    else if a = k then Memory.put a v rest
    else (k, w) :: Memory.write rest a v

/-- Every address listed lies at or above `low` and below the memory's size, addresses strictly rise, and no listed byte
is the unlisted value. -/
def Memory.wfFrom : Nat → Memory → Bool
  | _, [] => true
  | low, (k, v) :: rest =>
    decide (low ≤ k) && decide (k < Config.dmemSize) && decide (v ≠ unlistedByte) && Memory.wfFrom (k + 1) rest

/-- The canonical form of data memory. -/
def Memory.wf (m : Memory) : Bool := Memory.wfFrom 0 m

end Sys2Proof.Machine
end

