-- ==== Sys2Proof/Machine/State.lean ====
section
/-! DEFINITION. The state of the machine: everything spec/10_state.md R20 lists, and beside it the model's own record of
events (spec/60_exceptions.md R210, R217), as plain data; the machine after reset; the reasons a step can stop. -/

namespace Sys2Proof.Machine

/-- Which operand field of the instruction a BoundsViolation(RegIndex) speaks of (R214). -/
inductive OperandNo where
  | first
  | second
deriving DecidableEq, Repr

/-- The outcome of a transition or a host operation: the closed list of R210. -/
inductive Event where
  /-- code 0, `None`: a transition that completes normally. -/
  | none
  /-- code 1, `UnknownOpcode(op)`: Execute met an undeclared opcode and reset the machine (R211). -/
  | unknownOpcode (op : Byte)
  /-- code 2, `Unimplemented(op)`: Execute met a declared-but-unimplemented opcode (R150, R212). -/
  | unimplemented (op : Byte)
  /-- code 3, `BoundsViolation(ProgFetch, a)`: Fetch at an index with no word (R213). -/
  | progFetch (a : Byte)
  /-- code 4, `BoundsViolation(RegIndex, n, i)`: operand `n` of LDI, MOV, IN or OUT names no register (R214). -/
  | regIndex (n : OperandNo) (i : Byte)
  /-- code 5, `BoundsViolation(DataAddr, a)`: a host write above 1999 (R215). -/
  | dataAddr (a : Nat)
deriving DecidableEq, Repr

/-- The state of R20, with the model's two event fields. -/
structure State where
  /-- `x[0]` .. `x[31]` (R21). -/
  regs : Vector Byte Config.nreg
  /-- `pc`, a word index (R24). -/
  pc : Byte
  /-- `sr`: bit 0 Carry, 1 Overflow, 2 Zero, 3 Negative, 4 Interrupt (R25). -/
  sr : BitVec 5
  /-- `ir`, the word last fetched (R28). -/
  ir : Word
  /-- `mar`, the index that word was fetched from (R29). -/
  mar : Byte
  /-- The decoded opcode (R30). -/
  opcode : Byte
  /-- The decoded operand 1 (R30). -/
  operand1 : Byte
  /-- The decoded operand 2 (R30). -/
  operand2 : Byte
  /-- `cs` (R31). -/
  cs : CycleState
  /-- `dm[0]` .. `dm[1999]` (R33). -/
  dm : Memory
  /-- `pm[0]` .. `pm[PROG_LEN-1]`; `PROG_LEN` is the list's length (R32). -/
  pm : List Word
  /-- The model's own: what the last transition or host operation returned (R115, R210). -/
  event : Event
  /-- The model's own: every event other than None raised so far, each once, the newest first (R217). -/
  raised : List Event
deriving DecidableEq, Repr

/-- Reasons for a stop with a fault. The spec gives every step of this machine a next state (its events are `Event`s,
after which the machine goes on or holds), so this one reason is never reached by a step (R52); the debug read port
`dbg_mdata` can meet it (log 8). -/
inductive Fault where
  /-- Raised by `State.memRead` and `State.memWrite` for an address outside 0..1999, which the spec says does not exist
  (R33). IN and OUT carry an 8-bit address and cannot raise it (R52); the host's write turns it into
  BoundsViolation(DataAddr) (R196, R215). Safe: it stops. -/
  | noSuchDataAddress (a : Nat)
deriving DecidableEq, Repr

/-- Reasons for a refusal. -/
inductive Refusal where
  /-- Raised by an arm of `exec` whose instruction has no meaning yet; no arm of this model raises it. Safe. -/
  | notModelled (mnemonic : String)
  /-- Raised by `clockEdge` alone, when the ports `step` and `ext_we` are high in the same edge with `rst` low, which
  R200 forbids and gives no effect. Safe: it stops. No instruction and no `step` raises it. -/
  | stepWithHostWrite
deriving DecidableEq, Repr

/-- The machine right after reset: the table of R36, with no program placed and no event raised. -/
def State.reset : State where
  regs := Vector.replicate Config.nreg 0x00
  pc := 0x00
  sr := 0b00000
  ir := 0x000000
  mar := 0x00
  opcode := 0x00
  operand1 := 0x00
  operand2 := 0x00
  cs := .fetch
  dm := []
  pm := []
  event := .none
  raised := []

end Sys2Proof.Machine
end

