-- ==== Sys2Proof/Machine/Ops.lean ====
section
/-! DEFINITION. The named operations over registers, memory and the event record, and the machine's one form of
exception entry. Every meaning is written over these (spec/00_scope.md R9, spec/60_exceptions.md R210 to R221). -/

namespace Sys2Proof.Machine

/-- The three outcomes of a step of this machine. -/
abbrev Result := Host.Outcome State Fault Refusal

/-! ## Registers -/

/-- `x[i]` (R9, R21). -/
def State.readReg (s : State) (i : Fin Config.nreg) : Byte := s.regs[i]

/-- `x[i] <- v` (R9, R21). -/
def State.writeReg (s : State) (i : Fin Config.nreg) (v : Byte) : State := { s with regs := s.regs.set i v }

/-- `pc <- t` (R9, R24). -/
def State.setPc (s : State) (t : Byte) : State := { s with pc := t }

/-! ## Data memory -/

/-- The address names a data-memory byte: 0 to 1999 (R33). -/
def isDataAddress (a : Nat) : Bool := a < Config.dmemSize

/-- `MemRead(a, 1)` (R9, R56), for an address the caller has not checked. -/
def State.memRead (s : State) (a : Nat) : Except Fault Byte :=
  if isDataAddress a then .ok (Memory.read s.dm a) else .error (.noSuchDataAddress a)

/-- `MemWrite(a, 1, v)` (R9, R56), for an address the caller has not checked. -/
def State.memWrite (s : State) (a : Nat) (v : Byte) : Except Fault State :=
  if isDataAddress a then .ok { s with dm := Memory.write s.dm a v } else .error (.noSuchDataAddress a)

/-! ## Events -/

/-- The event ends a transition of the core or a host write in a BoundsViolation (codes 3 to 5 of R210). -/
def Event.isBounds : Event → Bool
  | .progFetch _ | .regIndex _ _ | .dataAddr _ => true
  | .none | .unknownOpcode _ | .unimplemented _ => false

/-- The transition ends normally: event None (R210). -/
def State.quiet (s : State) : State := { s with event := .none }

/-- The sticky record with an event added: each event once, the newest first (R217). -/
def recordEvent (e : Event) (seen : List Event) : List Event := if e ∈ seen then seen else e :: seen

/-- `raise e` (R9): the transition ends with the event, which joins the model's sticky record (R217). The machine's own
state is left as it is: what a transition changes before it raises is the caller's. -/
def State.raise (s : State) (e : Event) : State :=
  { s with event := e, raised := recordEvent e s.raised }

/-- The normal end of Execute: `cs <- Fetch`, event None (R113). -/
def State.endExecute (s : State) : State := { s with cs := .fetch, event := .none }

/-! ## Taking an exception, and the return from one

The machine has two forms of it. A BoundsViolation of the core changes no state and transfers control nowhere (R213,
R214, R216, R220): the core holds, because the next step meets the same condition. An undeclared opcode resets the
machine, saves nothing, and goes on at word 0 (R211, R220). There is no return from either (R221). -/

/-- `reset_all()` (R240): everything but program memory goes to its reset value. The model's event record is no part of
the machine and is kept (R217). -/
def State.resetAll (s : State) : State :=
  { State.reset with pm := s.pm, event := s.event, raised := s.raised }

/-- A transition of the core that ends in a BoundsViolation: no state changes, the event is returned (R213, R214). -/
def State.violate (s : State) (e : Event) : Result := .next (s.raise e)

/-- The exception entry of the machine: the full reset, with the offending opcode in the event (R211, R220). -/
def State.unknownOpcode (s : State) (op : Byte) : Result := .next (s.resetAll.raise (.unknownOpcode op))

/-- The common effect of the declared-but-unimplemented opcodes: `cs <- Fetch; raise Unimplemented(opcode)`, the value
read from the decoded `opcode` (R150, R212). -/
def State.unimplemented (s : State) : Result :=
  .next ({ s with cs := .fetch }.raise (.unimplemented s.opcode))

end Sys2Proof.Machine
end

