-- ==== Sys2Proof/Machine/Operands.lean ====
section
/-! DEFINITION. The operand forms of the implemented instructions (spec/30_encoding.md R82, R83): a register index that is
checked at Execute, a data-memory address used as it stands, and a literal or target that needs no function. -/

namespace Sys2Proof.Machine

/-- A register operand: the register it names, or the BoundsViolation it is (R83, R214). -/
def regOperand (n : OperandNo) (v : Byte) : Except Event (Fin Config.nreg) :=
  if h : v.toNat < Config.nreg then .ok ⟨v.toNat, h⟩ else .error (.regIndex n v)

/-- Goes on with the register an operand names; where it names none, the transition ends in the BoundsViolation and
changes nothing (R214). -/
def withReg (n : OperandNo) (v : Byte) (s : State) (k : Fin Config.nreg → Result) : Result :=
  match regOperand n v with
  | .ok i => k i
  | .error e => s.violate e

/-- The effective address of IN and OUT: the 8-bit field, zero-extended, with no base, offset or scaling (R52, R132,
R133). -/
def dataAddress (field : Byte) : Nat := field.toNat

/-- Goes on with the data byte an address field names (R132). -/
def withLoaded (field : Byte) (s : State) (k : Byte → Result) : Result :=
  match s.memRead (dataAddress field) with
  | .ok v => k v
  | .error f => .fault f

/-- Goes on with the state in which a byte is stored at the address a field names (R133). -/
def withStored (field v : Byte) (s : State) (k : State → Result) : Result :=
  match s.memWrite (dataAddress field) v with
  | .ok t => k t
  | .error f => .fault f

end Sys2Proof.Machine
end

