-- ==== Sys2Proof/Machine/Control.lean ====
section
/-! DEFINITION. The control instructions NOP and JMP (spec/42_control.md): the effect of their Execute transition. -/

namespace Sys2Proof.Machine

/-- NOP: only the cycle state changes (R140). -/
def execNop (_ignored1 _ignored2 : Byte) (s : State) : Result := .next s.endExecute

/-- JMP: `pc <- k`, the field itself, replacing the value Fetch wrote (R141). -/
def execJmp (target _ignored : Byte) (s : State) : Result := .next (s.setPc target).endExecute

end Sys2Proof.Machine
end

