-- ==== Sys2Proof/Machine/Declared.lean ====
section
/-! DEFINITION. The declared-but-unimplemented instructions (spec/43_declared_unimplemented.md), one definition each. The
hardware gives them no computation: the cycle state returns to Fetch and the event Unimplemented with the decoded opcode
value is raised; the operand fields are not interpreted (R150). That the model runs them at all, where U4 of
spec/93_implementation_defined.md advises a refusal, is its own choice (log 1). -/

namespace Sys2Proof.Machine

/-! ## Memory -/

/-- STS: no effect but `cs <- Fetch`, event Unimplemented(opcode) (R151). -/
def execSts (_a _b : Byte) (s : State) : Result := s.unimplemented

/-- LDS: no effect but `cs <- Fetch`, event Unimplemented(opcode) (R152). -/
def execLds (_a _b : Byte) (s : State) : Result := s.unimplemented

/-! ## Logical -/

/-- AND: no effect but `cs <- Fetch`, event Unimplemented(opcode) (R153). -/
def execAnd (_a _b : Byte) (s : State) : Result := s.unimplemented

/-- ANDI: no effect but `cs <- Fetch`, event Unimplemented(opcode) (R154). -/
def execAndi (_a _b : Byte) (s : State) : Result := s.unimplemented

/-- OR: no effect but `cs <- Fetch`, event Unimplemented(opcode) (R155). -/
def execOr (_a _b : Byte) (s : State) : Result := s.unimplemented

/-- ORI: no effect but `cs <- Fetch`, event Unimplemented(opcode) (R156). -/
def execOri (_a _b : Byte) (s : State) : Result := s.unimplemented

/-- XOR: no effect but `cs <- Fetch`, event Unimplemented(opcode) (R157). -/
def execXor (_a _b : Byte) (s : State) : Result := s.unimplemented

/-- XORI: no effect but `cs <- Fetch`, event Unimplemented(opcode) (R158). -/
def execXori (_a _b : Byte) (s : State) : Result := s.unimplemented

/-- CLR: no effect but `cs <- Fetch`, event Unimplemented(opcode) (R159). -/
def execClr (_a _b : Byte) (s : State) : Result := s.unimplemented

/-! ## Arithmetic -/

/-- ADD: no effect but `cs <- Fetch`, event Unimplemented(opcode) (R160). -/
def execAdd (_a _b : Byte) (s : State) : Result := s.unimplemented

/-- ADDI: no effect but `cs <- Fetch`, event Unimplemented(opcode) (R161). -/
def execAddi (_a _b : Byte) (s : State) : Result := s.unimplemented

/-- SUB: no effect but `cs <- Fetch`, event Unimplemented(opcode) (R162). -/
def execSub (_a _b : Byte) (s : State) : Result := s.unimplemented

/-- SUBI: no effect but `cs <- Fetch`, event Unimplemented(opcode) (R163). -/
def execSubi (_a _b : Byte) (s : State) : Result := s.unimplemented

/-- INC: no effect but `cs <- Fetch`, event Unimplemented(opcode) (R164). -/
def execInc (_a _b : Byte) (s : State) : Result := s.unimplemented

/-- DEC: no effect but `cs <- Fetch`, event Unimplemented(opcode) (R165). -/
def execDec (_a _b : Byte) (s : State) : Result := s.unimplemented

/-! ## Compare -/

/-- CP: no effect but `cs <- Fetch`, event Unimplemented(opcode) (R166). -/
def execCp (_a _b : Byte) (s : State) : Result := s.unimplemented

/-- CPI: no effect but `cs <- Fetch`, event Unimplemented(opcode) (R167). -/
def execCpi (_a _b : Byte) (s : State) : Result := s.unimplemented

/-! ## Branch -/

/-- BREQ: no effect but `cs <- Fetch`, event Unimplemented(opcode) (R168). -/
def execBreq (_a _b : Byte) (s : State) : Result := s.unimplemented

/-- BRNE: no effect but `cs <- Fetch`, event Unimplemented(opcode) (R169). -/
def execBrne (_a _b : Byte) (s : State) : Result := s.unimplemented

/-- BRGE: no effect but `cs <- Fetch`, event Unimplemented(opcode) (R170). -/
def execBrge (_a _b : Byte) (s : State) : Result := s.unimplemented

/-- BRGT: no effect but `cs <- Fetch`, event Unimplemented(opcode) (R171). -/
def execBrgt (_a _b : Byte) (s : State) : Result := s.unimplemented

/-- BRLE: no effect but `cs <- Fetch`, event Unimplemented(opcode) (R172). -/
def execBrle (_a _b : Byte) (s : State) : Result := s.unimplemented

/-- BRLT: no effect but `cs <- Fetch`, event Unimplemented(opcode) (R173). -/
def execBrlt (_a _b : Byte) (s : State) : Result := s.unimplemented

/-! ## Call and return -/

/-- CALL: no effect but `cs <- Fetch`, event Unimplemented(opcode) (R174). -/
def execCall (_a _b : Byte) (s : State) : Result := s.unimplemented

/-- RET: no effect but `cs <- Fetch`, event Unimplemented(opcode) (R175). -/
def execRet (_a _b : Byte) (s : State) : Result := s.unimplemented

/-! ## Stack -/

/-- PUSH: no effect but `cs <- Fetch`, event Unimplemented(opcode) (R176). -/
def execPush (_a _b : Byte) (s : State) : Result := s.unimplemented

/-- POP: no effect but `cs <- Fetch`, event Unimplemented(opcode) (R177). -/
def execPop (_a _b : Byte) (s : State) : Result := s.unimplemented

/-! ## Interrupt-enable -/

/-- SEI: no effect but `cs <- Fetch`, event Unimplemented(opcode) (R178). -/
def execSei (_a _b : Byte) (s : State) : Result := s.unimplemented

/-- CLI: no effect but `cs <- Fetch`, event Unimplemented(opcode) (R179). -/
def execCli (_a _b : Byte) (s : State) : Result := s.unimplemented

end Sys2Proof.Machine
end

