-- ==== Sys2Proof/Machine/Transfer.lean ====
section
/-! DEFINITION. The data transfer instructions LDI, MOV, IN and OUT (spec/41_transfer.md): the effect of their Execute
transition. `operand1` is checked before `operand2` (spec/60_exceptions.md R219). -/

namespace Sys2Proof.Machine

/-- LDI: `x[d] <- K` (R130). -/
def execLdi (d k : Byte) (s : State) : Result :=
  withReg .first d s fun i => .next (s.writeReg i k).endExecute

/-- MOV: `x[d] <- x[r]` (R131). -/
def execMov (d r : Byte) (s : State) : Result :=
  withReg .first d s fun i => withReg .second r s fun j => .next (s.writeReg i (s.readReg j)).endExecute

/-- IN: `x[d] <- MemRead(A)` (R132). -/
def execIn (d a : Byte) (s : State) : Result :=
  withReg .first d s fun i => withLoaded a s fun v => .next (s.writeReg i v).endExecute

/-- OUT: `MemWrite(A, x[r])` (R133). -/
def execOut (a r : Byte) (s : State) : Result :=
  withReg .second r s fun j => withStored a (s.readReg j) s fun t => .next t.endExecute

end Sys2Proof.Machine
end

