-- ==== Sys2Proof/Machine/Dispatch.lean ====
section
/-! DEFINITION. The dispatch of the Execute transition on the instruction (spec/40_cycle_engine.md R113, R114). -/

namespace Sys2Proof.Machine

def exec (i : Instr) (s : State) : Host.Outcome State Fault Refusal :=
  match i with
  | .nop a b => Sys2Proof.Machine.execNop a b s
  | .jmp a b => Sys2Proof.Machine.execJmp a b s
  | .ldi a b => Sys2Proof.Machine.execLdi a b s
  | .mov a b => Sys2Proof.Machine.execMov a b s
  | .in_ a b => Sys2Proof.Machine.execIn a b s
  | .out a b => Sys2Proof.Machine.execOut a b s
  | .sts a b => Sys2Proof.Machine.execSts a b s
  | .lds a b => Sys2Proof.Machine.execLds a b s
  | .and a b => Sys2Proof.Machine.execAnd a b s
  | .andi a b => Sys2Proof.Machine.execAndi a b s
  | .or a b => Sys2Proof.Machine.execOr a b s
  | .ori a b => Sys2Proof.Machine.execOri a b s
  | .xor a b => Sys2Proof.Machine.execXor a b s
  | .xori a b => Sys2Proof.Machine.execXori a b s
  | .clr a b => Sys2Proof.Machine.execClr a b s
  | .add a b => Sys2Proof.Machine.execAdd a b s
  | .addi a b => Sys2Proof.Machine.execAddi a b s
  | .sub a b => Sys2Proof.Machine.execSub a b s
  | .subi a b => Sys2Proof.Machine.execSubi a b s
  | .inc a b => Sys2Proof.Machine.execInc a b s
  | .dec a b => Sys2Proof.Machine.execDec a b s
  | .cp a b => Sys2Proof.Machine.execCp a b s
  | .cpi a b => Sys2Proof.Machine.execCpi a b s
  | .breq a b => Sys2Proof.Machine.execBreq a b s
  | .brne a b => Sys2Proof.Machine.execBrne a b s
  | .brge a b => Sys2Proof.Machine.execBrge a b s
  | .brgt a b => Sys2Proof.Machine.execBrgt a b s
  | .brle a b => Sys2Proof.Machine.execBrle a b s
  | .brlt a b => Sys2Proof.Machine.execBrlt a b s
  | .call a b => Sys2Proof.Machine.execCall a b s
  | .ret a b => Sys2Proof.Machine.execRet a b s
  | .push a b => Sys2Proof.Machine.execPush a b s
  | .pop a b => Sys2Proof.Machine.execPop a b s
  | .sei a b => Sys2Proof.Machine.execSei a b s
  | .cli a b => Sys2Proof.Machine.execCli a b s

end Sys2Proof.Machine
end

