-- ==== Sys2Proof/Machine/Cycle.lean ====
section
/-! DEFINITION. The fetch-decode-execute state machine: the three transitions, `step_state` and `step_instruction`
(spec/40_cycle_engine.md R110 to R116). What depends on a configuration takes it as an argument (spec/10_state.md R34). -/

namespace Sys2Proof.Machine

/-- `ProgRead(a)` where the index is populated (R9, R32). -/
def State.progRead (s : State) (a : Byte) : Option Word := s.pm[a.toNat]?

/-- The state after a Fetch of the word `w` (R111). -/
def State.fetched (s : State) (w : Word) : State :=
  { s with ir := w, mar := s.pc, pc := s.pc + 1, cs := .decode, event := .none }

/-- The Fetch transition (R111): the word at `pc`, or BoundsViolation(ProgFetch, pc) (R213). -/
def fetchTransition (s : State) : Result :=
  match s.progRead s.pc with
  | some w => .next (s.fetched w)
  | none => s.violate (.progFetch s.pc)

/-- The state after a Decode (R112). -/
def State.decoded (s : State) : State :=
  { s with
    opcode := opcodeField s.ir
    operand1 := operand1Field s.ir
    operand2 := operand2Field s.ir
    cs := .execute
    event := .none }

/-- The Decode transition: a bit-field extraction that cannot fail (R112). -/
def decodeTransition (s : State) : Result := .next s.decoded

/-- The Execute transition (R113), by the class of the decoded opcode (R85): the effect of the instruction the decoded fields
stand for, the one effect of every declared mnemonic that is not implemented (R150), or the reset of an undeclared opcode
(R211). -/
def executeTransition (c : Config) (s : State) : Result :=
  match classOf c s.opcode with
  | .instruction m => exec (Instr.make m s.operand1 s.operand2) s
  | .further _ => s.unimplemented
  | .undeclared => s.unknownOpcode s.opcode

/-- `step_state()`: exactly one transition, the one the cycle state selects (R115). -/
def stepState (c : Config) (s : State) : Result :=
  match s.cs with
  | .fetch => fetchTransition s
  | .decode => decodeTransition s
  | .execute => executeTransition c s

/-- `repeat prev <- cs; e <- step_state() until prev = Execute or e is a BoundsViolation` (R116), for at most the given
number of transitions. -/
def stepUntilExecuted (c : Config) : Nat → State → Result
  | 0, s => .next s
  | n + 1, s =>
    match stepState c s with
    | .next t => if s.cs = .execute ∨ t.event.isBounds then .next t else stepUntilExecuted c n t
    | .fault f => .fault f
    | .refused r => .refused r

/-- `step_instruction()` (R116). Its loop ends within three transitions: from Fetch it makes three, from Decode two, from
Execute one. -/
def stepInstruction (c : Config) (s : State) : Result := stepUntilExecuted c 3 s

/-- Program memory with a word placed at an index, lengthened with all-zero words where it does not reach that far. -/
def placeWord : List Word → Nat → Word → List Word
  | [], 0, w => [w]
  | [], n + 1, w => 0 :: placeWord [] n w
  | _ :: rest, 0, w => w :: rest
  | v :: rest, n + 1, w => v :: placeWord rest n w

end Sys2Proof.Machine
end

