-- ==== Sys2Proof/Machine/Step.lean ====
section
/-! DEFINITION. One step of the model is one instruction, `step_instruction()` (spec/40_cycle_engine.md R116); one
transition, `step_state()` (R115), is `stepState` in Sys2Proof/Machine/Cycle.lean. -/

namespace Sys2Proof.Machine

/-- One instruction cycle, from whatever cycle state the machine is in (R116), under the default configuration; under
another it is `stepInstruction`. -/
def step (s : State) : Host.Outcome State Fault Refusal := stepInstruction defaultConfig s

/-- The state with a word placed where the next step fetches: at `pc` in program memory, with the cycle state at Fetch.
It stands for the loading of a program from outside the machine (R198, R244). -/
def State.withFetchWord (s : State) (nbits w : Nat) : State :=
  { s with pm := placeWord s.pm s.pc.toNat (BitVec.ofNat 24 (w % 2 ^ nbits)), cs := .fetch }

end Sys2Proof.Machine
end

