-- ==== Sys2Proof/Machine/Flags.lean ====
section
/-! DEFINITION. The operations on the status register's bits (spec/10_state.md R26), by position; the position of a named
bit is `Config.statusPosition` (R25). They are internal operations for the use of instruction effects; no implemented
instruction uses one (R27). -/

namespace Sys2Proof.Machine

/-- The status register with bit `b` alone set. -/
def statusMask (b : Fin 5) : BitVec 5 := 1#5 <<< b.val

/-- `sr_set(b)`: `sr <- sr | (1 << b)` (R26). -/
def srSet (b : Fin 5) (s : State) : State := { s with sr := s.sr ||| statusMask b }

/-- `sr_clear(b)`: `sr <- sr & ~(1 << b)`, within 5 bits (R26). -/
def srClear (b : Fin 5) (s : State) : State := { s with sr := s.sr &&& ~~~(statusMask b) }

/-- `sr_test(b)`: `sr[b]` (R26). -/
def srTest (b : Fin 5) (s : State) : Bool := s.sr.getLsbD b.val

end Sys2Proof.Machine
end

