-- ==== Sys2Proof/WellFormed.lean ====
section
/-! DEFINITION. Which instructions a program may contain by the operand ranges of spec/30_encoding.md R83: every register
operand of an implemented instruction names one of the 32 registers. An instruction outside these ranges still decodes
(R88) and still has a meaning: BoundsViolation (spec/60_exceptions.md R214). -/

namespace Sys2Proof

/-- The field names a general register: 0 to 31 (R21). -/
def isRegIndex (v : Byte) : Bool := v.toNat < Config.nreg

/-- The legal operand ranges of R83. The fields of NOP, JMP and of the declared-but-unimplemented opcodes have no range. -/
def WellFormed : Instr → Bool
  | .nop _ _ => true
  | .jmp _ _ => true
  | .ldi d _ => isRegIndex d
  | .mov d r => isRegIndex d && isRegIndex r
  | .in_ d _ => isRegIndex d
  | .out _ r => isRegIndex r
  | .sts _ _ => true
  | .lds _ _ => true
  | .and _ _ => true
  | .andi _ _ => true
  | .or _ _ => true
  | .ori _ _ => true
  | .xor _ _ => true
  | .xori _ _ => true
  | .clr _ _ => true
  | .add _ _ => true
  | .addi _ _ => true
  | .sub _ _ => true
  | .subi _ _ => true
  | .inc _ _ => true
  | .dec _ _ => true
  | .cp _ _ => true
  | .cpi _ _ => true
  | .breq _ _ => true
  | .brne _ _ => true
  | .brge _ _ => true
  | .brgt _ _ => true
  | .brle _ _ => true
  | .brlt _ _ => true
  | .call _ _ => true
  | .ret _ _ => true
  | .push _ _ => true
  | .pop _ _ => true
  | .sei _ _ => true
  | .cli _ _ => true

end Sys2Proof
end

