-- ==== Sys2Proof/Machine/Naming.lean ====
section
/-! DEFINITION. The naming services of the Instruction Set Definition and the assembler notation (spec/30_encoding.md R90
to R96). Pure functions for display: no rule of the machine depends on them. -/

namespace Sys2Proof.Machine

/-- The sentinel of the naming services (R93, R95). -/
def unknownName : String := "Unknown"

/-- `opcode_name(opcode)` (R93). -/
def opcodeName (c : Config) (op : Byte) : String :=
  match classOf c op with
  | .instruction m => mnemonicName m
  | .further name => name
  | .undeclared => unknownName

/-- `cycle_state_name(state)` (R94). -/
def cycleStateName : CycleState → String
  | .fetch => "Fetch"
  | .decode => "Decode"
  | .execute => "Execute"

/-- `register_name(i)` (R22, R95). -/
def registerName (i : Nat) : String := if i < Config.nreg then "R" ++ i.repr else unknownName

/-- The number of binary digits of a value: `1 + floor(log2(value))`, and 1 for 0 (R96). -/
def binaryDigitCount (value : Nat) : Nat := if value = 0 then 1 else 1 + value.log2

/-- The digits of `format_binary`, most significant first (R96). -/
def binaryDigits (value minimumWidth : Nat) : List Char :=
  (List.range (max (binaryDigitCount value) minimumWidth)).reverse.map
    (fun k => if value.testBit k then '1' else '0')

/-- `format_binary(value, minimum_width)` (R96). -/
def formatBinary (value minimumWidth : Nat) : String := String.ofList (binaryDigits value minimumWidth)

/-! ## Assembler notation -/

/-- One upper-case hexadecimal digit. -/
def hexDigit (n : Nat) : Char :=
  match n with
  | 0 => '0' | 1 => '1' | 2 => '2' | 3 => '3' | 4 => '4' | 5 => '5' | 6 => '6' | 7 => '7'
  | 8 => '8' | 9 => '9' | 10 => 'A' | 11 => 'B' | 12 => 'C' | 13 => 'D' | 14 => 'E' | _ => 'F'

/-- A byte as a number: hexadecimal with `0x` (R90). -/
def byteText (v : Byte) : String := "0x" ++ String.ofList [hexDigit (v.toNat / 16), hexDigit (v.toNat % 16)]

/-- A data address: one of the three symbolic cells, or a number (R58, R90). -/
def dataAddressText (c : Config) (a : Byte) : String :=
  if a = c.ddrb then "DDRB"
  else if a = c.portb then "PORTB"
  else if a = c.pinb then "PINB"
  else byteText a

/-- A register operand (R90). -/
def registerText (i : Byte) : String := registerName i.toNat

/-- The operands as the notation writes them, in field order, an ignored one left out (R90). -/
def operandTexts (c : Config) (i : Instr) : List String :=
  match i with
  | .nop _ _ => []
  | .jmp t _ => [byteText t]
  | .ldi d k => [registerText d, byteText k]
  | .mov d r => [registerText d, registerText r]
  | .in_ d a => [registerText d, dataAddressText c a]
  | .out a r => [dataAddressText c a, registerText r]
  | i => [byteText i.operand1, byteText i.operand2]

/-- The notation of R90 for an instruction whose register operands name registers; the notation has no form for
another. -/
def assemblyText (c : Config) (i : Instr) : Option String :=
  if WellFormed i then
    match operandTexts c i with
    | [] => some (mnemonicName i.mnemonic)
    | [x] => some (mnemonicName i.mnemonic ++ " " ++ x)
    | x :: rest => some (mnemonicName i.mnemonic ++ " " ++ x ++ ", " ++ String.join rest)
  else none

/-- The notation of R90 for a word: that of the instruction it decodes to; for a further declared mnemonic the mnemonic and
both fields as numbers; `.word` for an undeclared opcode. -/
def wordText (c : Config) (w : Word) : Option String :=
  match classOf c (opcodeField w) with
  | .instruction m => assemblyText c (Instr.make m (operand1Field w) (operand2Field w))
  | .further name => some (name ++ " " ++ byteText (operand1Field w) ++ ", " ++ byteText (operand2Field w))
  | .undeclared =>
    some (".word 0x" ++ String.ofList
      ((wordBytes w).flatMap fun v => [hexDigit (v.toNat / 16), hexDigit (v.toNat % 16)]))

end Sys2Proof.Machine
end

