-- ==== Sys2Proof/Machine/HostInterface.lean ====
section
/-! DEFINITION. What the outside can do to the block (spec/45_host_interface.md): `reset`, `step_state`,
`step_instruction`, `snapshot` and `write_data_memory`, each one atomic operation between transitions (R61, R190). -/

namespace Sys2Proof.Machine

/-- `reset()`: `reset_all()`, in any state, a hold included (R191, R240, R241). -/
def hostReset (s : State) : State := s.resetAll.quiet

/-- `write_data_memory(address, value)`: one byte, or BoundsViolation(DataAddr, address) and nothing written (R196). -/
def writeDataMemory (address : Nat) (value : Byte) (s : State) : State :=
  match s.memWrite address value with
  | .ok t => t.quiet
  | .error _ => s.raise (.dataAddr address)

/-- External pin input: a host write to the cell PINB (R197). -/
def writePins (c : Config) (value : Byte) (s : State) : State := writeDataMemory c.pinb.toNat value s

/-- What `snapshot()` shows: the fields R193 lists, in its order, and the rest of the mutable state of R20. DESIGN CHOICE
(log 13): program memory is not shown. R193 says every piece of state of R20 and names no program memory; R20's "read by"
column and R50 give it no reader but Fetch. -/
structure Snapshot where
  opcodeName : String
  cycleStateName : String
  pc : Byte
  irOpcode : Byte
  irOperand1 : Byte
  irOperand2 : Byte
  carry : Bool
  overflow : Bool
  zero : Bool
  negative : Bool
  interrupt : Bool
  registers : Vector Byte Config.nreg
  ddrb : Byte
  portb : Byte
  pinb : Byte
  mar : Byte
  opcode : Byte
  operand1 : Byte
  operand2 : Byte
  dataMemory : List Byte
deriving DecidableEq, Repr

/-- `snapshot()` (R193): a function of the state that changes nothing. The opcode name is that of the decoded `opcode`
field, so it names the last decoded instruction. -/
def snapshot (c : Config) (s : State) : Snapshot where
  opcodeName := opcodeName c s.opcode
  cycleStateName := cycleStateName s.cs
  pc := s.pc
  irOpcode := opcodeField s.ir
  irOperand1 := operand1Field s.ir
  irOperand2 := operand2Field s.ir
  carry := srTest (c.statusPosition .carry) s
  overflow := srTest (c.statusPosition .overflow) s
  zero := srTest (c.statusPosition .zero) s
  negative := srTest (c.statusPosition .negative) s
  interrupt := srTest (c.statusPosition .interrupt) s
  registers := s.regs
  ddrb := Memory.read s.dm c.ddrb.toNat
  portb := Memory.read s.dm c.portb.toNat
  pinb := Memory.read s.dm c.pinb.toNat
  mar := s.mar
  opcode := s.opcode
  operand1 := s.operand1
  operand2 := s.operand2
  dataMemory := (List.range Config.dmemSize).map (Memory.read s.dm)

/-- The operations the block exposes to the host, and nothing else (R190). -/
inductive HostOp where
  | reset
  | stepState
  | stepInstruction
  | snapshot
  | writeDataMemory (address : Nat) (value : Byte)
deriving DecidableEq, Repr

/-- One operation of the host. What a snapshot returns is `snapshot`; the state it leaves is the one it read (R193). -/
def perform (c : Config) (op : HostOp) (s : State) : Result :=
  match op with
  | .reset => .next (hostReset s)
  | .stepState => stepState c s
  | .stepInstruction => stepInstruction c s
  | .snapshot => .next s
  | .writeDataMemory address value => .next (writeDataMemory address value s)

/-- A sequence of host operations, one after the other (R61). -/
def performAll (c : Config) : List HostOp → State → Result
  | [], s => .next s
  | op :: ops, s =>
    match perform c op s with
    | .next t => performAll c ops t
    | .fault f => .fault f
    | .refused r => .refused r

/-- A program the block can hold: 1 to 256 words (R32). -/
def programOk (prog : List Word) : Bool := 1 ≤ prog.length && prog.length ≤ Config.maxProgLen

/-- The launch state: the program in place, then the reset (R244). -/
def State.launch (prog : List Word) : State := { State.reset with pm := prog }

end Sys2Proof.Machine
end

