-- ==== Sys2Proof/Machine/Ports.lean ====
section
/-! DEFINITION. The block as a synchronous circuit: what one rising clock edge does and what the outputs show
(spec/45_host_interface.md R200), and the event codes (spec/60_exceptions.md R210). -/

namespace Sys2Proof.Machine

/-- The input ports of one edge, the debug read addresses included (R200). -/
structure PortsIn where
  rst : Bool
  step : Bool
  extWe : Bool
  extAddr : BitVec 11
  extData : Byte
  dbgRaddr : BitVec 5
  dbgMaddr : BitVec 11
deriving DecidableEq, Repr

/-- One rising edge of `clk` (R200): reset wins; `step` alone is one transition; `ext_we` alone is a host write; with all
low nothing changes. `step` and `ext_we` are not to be high together. -/
def clockEdge (c : Config) (p : PortsIn) (s : State) : Result :=
  if p.rst then .next (hostReset s)
  else if p.step && p.extWe then .refused .stepWithHostWrite
  else if p.step then stepState c s
  else if p.extWe then .next (writeDataMemory p.extAddr.toNat p.extData s)
  else .next s.quiet

/-- Which row of R210's list an event is. -/
def Event.kind : Event → EventKind
  | .none => .none
  | .unknownOpcode _ => .unknownOpcode
  | .unimplemented _ => .unimplemented
  | .progFetch _ => .progFetch
  | .regIndex _ _ => .regIndex
  | .dataAddr _ => .dataAddr

/-- The event information: opcode, index or address (R200, R210). DESIGN CHOICE (log 14): 0 for the event None, to which
R200 and R210 give no information. -/
def Event.info : Event → BitVec 11
  | .none => 0
  | .unknownOpcode op => op.setWidth 11
  | .unimplemented op => op.setWidth 11
  | .progFetch a => a.setWidth 11
  | .regIndex _ i => i.setWidth 11
  | .dataAddr a => BitVec.ofNat 11 a

/-- Which operand, 1 or 2; 0 for every event but BoundsViolation(RegIndex) (R200). -/
def Event.operandNumber : Event → BitVec 2
  | .regIndex .first _ => 1
  | .regIndex .second _ => 2
  | .none | .unknownOpcode _ | .unimplemented _ | .progFetch _ | .dataAddr _ => 0

/-- The output ports (R200). -/
structure PortsOut where
  evCode : BitVec 3
  evInfo : BitVec 11
  evOpnd : BitVec 2
  dbgPc : Byte
  dbgIr : Word
  dbgMar : Byte
  dbgOpcode : Byte
  dbgOperand1 : Byte
  dbgOperand2 : Byte
  dbgSr : BitVec 5
  dbgCs : BitVec 2
  dbgRdata : Byte
deriving DecidableEq, Repr

/-- The outputs after an edge: the event of the transition performed on it, and the view of the state (R200). DESIGN CHOICE
(log 15): after an edge that performs a host write the event outputs show the outcome of that write (R210), code 5 and the
address if it is above 1999; R200 speaks of a transition's code only, 0 when there is none, and a host write is none
(R10). -/
def portsOut (c : Config) (p : PortsIn) (s : State) : PortsOut where
  evCode := c.eventCode s.event.kind
  evInfo := s.event.info
  evOpnd := s.event.operandNumber
  dbgPc := s.pc
  dbgIr := s.ir
  dbgMar := s.mar
  dbgOpcode := s.opcode
  dbgOperand1 := s.operand1
  dbgOperand2 := s.operand2
  dbgSr := s.sr
  dbgCs := c.cycleCode s.cs
  dbgRdata := s.readReg p.dbgRaddr.toFin

/-- The data-memory read port `dbg_mdata` (R200); addresses 2000 to 2047 name no byte (R33). -/
def dbgMdata (p : PortsIn) (s : State) : Except Fault Byte := s.memRead p.dbgMaddr.toNat

end Sys2Proof.Machine
end

