-- ==== Sys2Proof/Safety.lean ====
section
/-! DEFINITION. What counts as a good state and a safe run of this machine, in the terms the statements use. -/

namespace Sys2Proof.Machine

/-! ## Runs -/

/-- The state is reached from the launch state of a program by host operations (spec/70_reset_and_hazards.md R244,
spec/45_host_interface.md R199). -/
def Reachable (c : Config) (prog : List Word) (s : State) : Prop :=
  ∃ ops, performAll c ops (State.launch prog) = .next s

/-- No event has been raised so far: "the program ran without fault" (spec/60_exceptions.md R217). -/
def EventFree (s : State) : Prop := s.event = .none ∧ s.raised = []

/-- The core holds with a BoundsViolation: its next transition changes nothing but the event (R216). -/
def Holds (c : Config) (s : State) (e : Event) : Prop := e.isBounds = true ∧ stepState c s = .next (s.raise e)

/-! ## Comparing states -/

/-- The same state of spec/10_state.md R20, field by field; only the model's event record may differ. -/
def SameMachine (s t : State) : Prop :=
  t.regs = s.regs ∧ t.pc = s.pc ∧ t.sr = s.sr ∧ t.ir = s.ir ∧ t.mar = s.mar ∧ t.opcode = s.opcode ∧
  t.operand1 = s.operand1 ∧ t.operand2 = s.operand2 ∧ t.cs = s.cs ∧ t.dm = s.dm ∧ t.pm = s.pm

/-- The control registers no Execute effect writes are the same: status register, instruction register, memory address
register, decoded fields, program memory (spec/40_cycle_engine.md R113). -/
def SameSpecials (s t : State) : Prop :=
  t.sr = s.sr ∧ t.ir = s.ir ∧ t.mar = s.mar ∧ t.opcode = s.opcode ∧ t.operand1 = s.operand1 ∧
  t.operand2 = s.operand2 ∧ t.pm = s.pm

/-- Every data byte reads as before. -/
def SameData (s t : State) : Prop := ∀ a : Nat, Memory.read t.dm a = Memory.read s.dm a

/-- What the machine can act on is the same: everything but the status register and the memory address register, which
only snapshot reads (R20), the data bytes from 256 on, which no instruction reaches (spec/20_memory.md R52), and the
model's record of events. -/
def SameActive (s t : State) : Prop :=
  t.regs = s.regs ∧ t.pc = s.pc ∧ t.ir = s.ir ∧ t.opcode = s.opcode ∧ t.operand1 = s.operand1 ∧
  t.operand2 = s.operand2 ∧ t.cs = s.cs ∧ t.pm = s.pm ∧
  ∀ a : Nat, a < 256 → Memory.read t.dm a = Memory.read s.dm a

/-- The successor of a cycle state in the loop Fetch, Decode, Execute, Fetch (R110). -/
def successor : CycleState → CycleState
  | .fetch => .decode
  | .decode => .execute
  | .execute => .fetch

/-- The event is an UnknownOpcode: the transition was the machine's own reset (R211). -/
def IsReset (e : Event) : Prop := ∃ op, e = .unknownOpcode op

/-! ## The invariant of the engine -/

/-- Between Fetch and the end of Execute the instruction register holds the word `mar` names, and `pc` is the index after
it (R24, R28, R29). -/
def FetchedConsistent (s : State) : Prop :=
  s.cs ≠ .fetch → s.progRead s.mar = some s.ir ∧ s.pc = s.mar + 1

/-- Between Decode and the end of Execute the decoded fields are those of the instruction register (R30, R112). -/
def DecodedConsistent (s : State) : Prop :=
  s.cs = .execute →
    s.opcode = opcodeField s.ir ∧ s.operand1 = operand1Field s.ir ∧ s.operand2 = operand2Field s.ir

/-- The event record is a set without None that holds the last event raised (R217). -/
def RecordOk (s : State) : Prop :=
  s.raised.Nodup ∧ Event.none ∉ s.raised ∧ (s.event = .none ∨ s.event ∈ s.raised)

/-- The invariant: data memory in canonical form, the engine's registers consistent with its cycle state, the event
record well formed. -/
def Inv (s : State) : Prop :=
  Memory.wf s.dm = true ∧ FetchedConsistent s ∧ DecodedConsistent s ∧ RecordOk s

/-! ## What software must do (spec/70_reset_and_hazards.md R246) -/

/-- A word that keeps R246's duties at an index of a program of the given length: an implemented opcode, register operands
that name registers, a jump target inside the program, and a jump in the last word. -/
def dutifulWord (c : Config) (len index : Nat) (w : Word) : Bool :=
  match decodeWith c w with
  | .ok (.jmp target _) => target.toNat < len
  | .ok i => i.mnemonic.implemented && WellFormed i && index + 1 < len
  | .error _ => false

/-- A program all of whose words keep R246's duties. -/
def Dutiful (c : Config) (prog : List Word) : Prop :=
  programOk prog = true ∧ ∀ (index : Nat) (w : Word), prog[index]? = some w → dutifulWord c prog.length index w = true

/-- The state of a dutiful program's run that has raised no event: the engine is consistent, and a Fetch will find a
word. -/
def Guarded (c : Config) (s : State) : Prop :=
  Dutiful c s.pm ∧ EventFree s ∧ FetchedConsistent s ∧ DecodedConsistent s ∧
  (s.cs = .fetch → s.pc.toNat < s.pm.length)

/-! ## The shapes of meanings -/

/-- The operand of an instruction that Execute reports: the first register operand, in the order of the fields, that names
no register (spec/60_exceptions.md R214, R219). LDI, MOV and IN have a register in operand 1, MOV and OUT in operand 2. -/
def FailingOperand (i : Instr) (n : OperandNo) (v : Byte) : Prop :=
  match i with
  | .ldi d _ => n = .first ∧ v = d ∧ 31 < d.toNat
  | .mov d r => (n = .first ∧ v = d ∧ 31 < d.toNat) ∨ (n = .second ∧ v = r ∧ d.toNat ≤ 31 ∧ 31 < r.toNat)
  | .in_ d _ => n = .first ∧ v = d ∧ 31 < d.toNat
  | .out _ r => n = .second ∧ v = r ∧ 31 < r.toNat
  | _ => False

/-- What spec/43_declared_unimplemented.md says of one of its instructions, whatever the operands and the state: its word
is the opcode value and the two fields; its Execute transition returns the cycle state to Fetch, raises Unimplemented with
the decoded opcode, and changes nothing else; and the whole instruction cycle of its word raises Unimplemented with the
opcode value. -/
def DeclaredOnly (mk : Byte → Byte → Instr) (op : Byte) : Prop :=
  ∀ (a b : Byte) (s : State),
    encode (mk a b) = packWord op a b ∧
    exec (mk a b) s = .next { s with
      cs := .fetch
      event := .unimplemented s.opcode
      raised := recordEvent (.unimplemented s.opcode) s.raised } ∧
    (s.cs = .fetch → s.pm[s.pc.toNat]? = some (packWord op a b) →
      step s = .next { s with
        pc := s.pc + 1
        mar := s.pc
        ir := packWord op a b
        opcode := op
        operand1 := a
        operand2 := b
        event := .unimplemented op
        raised := recordEvent (.unimplemented op) s.raised })

/-- Two states of machines with different opcode maps that a program written in mnemonics cannot tell apart: the same
registers, counters, cycle state, status register and data memory; the words of instructions differ. -/
def SameToProgram (s t : State) : Prop :=
  t.regs = s.regs ∧ t.pc = s.pc ∧ t.sr = s.sr ∧ t.mar = s.mar ∧ t.operand1 = s.operand1 ∧ t.operand2 = s.operand2 ∧
  t.cs = s.cs ∧ t.dm = s.dm

/-- Two opcode values mean the same, each under its configuration: the same instruction, the same further mnemonic, or
both nothing declared (spec/30_encoding.md R85). -/
def SameOpcode (c c' : Config) (op op' : Byte) : Prop := classOf c op = classOf c' op'

/-- Two words are the same instruction, each under its configuration. -/
def SameWord (c c' : Config) (w w' : Word) : Prop :=
  SameOpcode c c' (opcodeField w) (opcodeField w') ∧ operand1Field w' = operand1Field w ∧ operand2Field w' = operand2Field w

/-- Two machines with different opcode maps in the same run: a program cannot tell the states apart, their program memories
hold word for word the same instructions, and so do, as far as an instruction is under way, the instruction register and
the decoded opcode. Between instructions those two are not compared: a reset puts the same 0 in both, which may mean
different instructions. -/
def SameRun (c c' : Config) (s t : State) : Prop :=
  SameToProgram s t ∧ List.Forall₂ (SameWord c c') s.pm t.pm ∧
  (s.cs ≠ .fetch → SameWord c c' s.ir t.ir) ∧ (s.cs = .execute → SameOpcode c c' s.opcode t.opcode)

end Sys2Proof.Machine
end

