-- ==== Sys2Proof/Certificates/Slice0/Obligations.lean ====
section
/-! DEFINITION. The statements for the provers. Each docstring names the rules of spec/ it formalises. -/

open Sys2Proof Sys2Proof.Machine

/-! ## Encoding -/

/-- R86, R88: under any configuration the spec allows, every injective opcode map among them, the decoder reads back every
declared instruction from its word, with every operand at every value. -/
def Obligations.DecodeEncode : Prop :=
  ∀ c : Config, Config.Ok c →
    ∀ i : Instr, c.declared i.mnemonic = true → decodeWith c (encodeWith c i) = .ok i

/-- R6, R86, R87: the default configuration meets what the spec requires of one, injectivity of the opcode map among it; it
declares every mnemonic of the table and no other; the declared values are 0x00 to 0x22 and the undeclared ones the rest. -/
def Obligations.DefaultMapInjective : Prop :=
  Config.Ok defaultConfig ∧ Function.Injective defaultConfig.opc ∧
  (∀ m : Mnemonic, defaultConfig.declared m = true) ∧ defaultConfig.further = [] ∧
  (∀ v : Byte, v.toNat ≤ 0x22 ↔ ∃ m, defaultConfig.opc m = v) ∧
  (∀ v : Byte, 0x23 ≤ v.toNat ↔ Undeclared defaultConfig v)

/-- R80, R82: under any configuration a word that decodes is the word of what it decodes to: no bit is dropped. -/
def Obligations.EncodeDecode : Prop :=
  ∀ (c : Config) (w : Word) (i : Instr), decodeWith c w = .ok i → encodeWith c i = w

/-- R85, R87: the decoder gives an instruction for exactly the words whose opcode field holds the value of a declared
mnemonic of the table, rejects those of a further declared mnemonic by its name, and rejects as unknown exactly those whose
value nothing declares; with the default map the last are the values from 0x23 on. -/
def Obligations.UndeclaredWords : Prop :=
  ∀ w : Word,
    (∀ c : Config, Config.Ok c →
      ((∃ m, c.declared m = true ∧ c.opc m = opcodeField w) ↔ ∃ i, decodeWith c w = .ok i) ∧
      (∀ f : FurtherMnemonic, f ∈ c.further → f.value = opcodeField w → decodeWith c w = .error (.furtherMnemonic f.name)) ∧
      (Undeclared c (opcodeField w) ↔ decodeWith c w = .error (.unknownOpcode (opcodeField w)))) ∧
    (0x23 ≤ (opcodeField w).toNat ↔ decode w = .error (.unknownOpcode (opcodeField w)))

/-- R97: the example words of the spec decode to the instructions it names. -/
def Obligations.KnownWords : Prop :=
  decode 0x021001 = .ok (.ldi 16 1) ∧ decode 0x050010 = .ok (.out 0 16) ∧ decode 0x0105FF = .ok (.jmp 5 0xFF) ∧
  decode 0xAABBCC = .error (.unknownOpcode 0xAA)

/-- R54: the three bytes of a word, opcode first, decode as the word does. -/
def Obligations.BytesOfWord : Prop :=
  ∀ w : Word,
    wordBytes w = [opcodeField w, operand1Field w, operand2Field w] ∧ decodeBytes (wordBytes w) = decode w

/-- R84: an ignored field takes no part in execution: writing zeros into the ignored fields changes no meaning. -/
def Obligations.IgnoredFields : Prop :=
  ∀ (i : Instr) (s : State), exec i.canonical s = exec i s

/-! ## The three transitions -/

/-- R111: the Fetch transition, at a populated index and at one that is not. -/
def Obligations.FetchTransition : Prop :=
  ∀ (c : Config) (s : State), s.cs = .fetch →
    (∀ w : Word, s.pm[s.pc.toNat]? = some w →
      stepState c s = .next { s with
        ir := w
        mar := s.pc
        pc := BitVec.ofNat 8 ((s.pc.toNat + 1) % 256)
        cs := .decode
        event := .none }) ∧
    (s.pm.length ≤ s.pc.toNat →
      stepState c s = .next { s with
        event := .progFetch s.pc
        raised := recordEvent (.progFetch s.pc) s.raised })

/-- R112: the Decode transition splits the instruction register and touches nothing else. -/
def Obligations.DecodeTransition : Prop :=
  ∀ (c : Config) (s : State), s.cs = .decode →
    ∃ op a b : Byte,
      stepState c s = .next { s with opcode := op, operand1 := a, operand2 := b, cs := .execute, event := .none } ∧
      (∀ k < 8, op.getLsbD k = s.ir.getLsbD (16 + k)) ∧
      (∀ k < 8, a.getLsbD k = s.ir.getLsbD (8 + k)) ∧
      (∀ k < 8, b.getLsbD k = s.ir.getLsbD k)

/-- R211: Execute of an undeclared opcode leaves the state an explicit reset leaves, all zero with the cycle state at
Fetch, and returns the opcode; the operands play no part, and Decode of such a word resets nothing. -/
def Obligations.UnknownOpcodeResets : Prop :=
  ∀ c : Config,
    (∀ s : State, s.cs = .execute → Undeclared c s.opcode →
      ∃ t, stepState c s = .next t ∧ SameMachine (hostReset s) t ∧ SameMachine (State.launch s.pm) t ∧
        t.event = .unknownOpcode s.opcode ∧ t.raised = recordEvent (.unknownOpcode s.opcode) s.raised) ∧
    (∀ s : State, s.cs = .decode →
      ∃ t, stepState c s = .next t ∧ t.event = .none ∧ t.cs = .execute ∧ t.opcode = opcodeField s.ir ∧
        t.regs = s.regs ∧ t.pc = s.pc ∧ t.sr = s.sr ∧ t.ir = s.ir ∧ t.mar = s.mar ∧ t.dm = s.dm)

/-- R117: one transition moves the cycle state to its successor, unless it ends in a BoundsViolation, which leaves all
state as it was. -/
def Obligations.CycleClosure : Prop :=
  ∀ (c : Config) (s : State), ∃ t, stepState c s = .next t ∧
    (t.event.isBounds = false → t.cs = successor s.cs) ∧
    (t.event.isBounds = true → SameMachine s t)

/-- R118: which transition may change what. -/
def Obligations.TransitionFrames : Prop :=
  ∀ (c : Config) (s t : State), stepState c s = .next t →
    (s.cs ≠ .execute → t.regs = s.regs ∧ SameData s t) ∧
    (s.cs = .decode → t.pc = s.pc) ∧
    (s.cs = .execute → t.pc = s.pc ∨ (s.opcode = c.opc .JMP ∧ t.pc = s.operand1) ∨ (IsReset t.event ∧ t.pc = 0)) ∧
    (s.cs ≠ .fetch → (t.ir = s.ir ∧ t.mar = s.mar) ∨ (IsReset t.event ∧ t.ir = 0 ∧ t.mar = 0)) ∧
    (s.cs ≠ .decode →
      (t.opcode = s.opcode ∧ t.operand1 = s.operand1 ∧ t.operand2 = s.operand2) ∨
      (IsReset t.event ∧ t.opcode = 0 ∧ t.operand1 = 0 ∧ t.operand2 = 0))

/-! ## Whole instructions -/

/-- R111, R112, R113, R116: from Fetch, where the word at the program counter decodes to an instruction, a step is that
instruction's Execute effect after the Fetch and the Decode of the word. -/
def Obligations.StepRunsDecoded : Prop :=
  ∀ (s : State) (w : Word) (i : Instr), s.cs = .fetch → s.pm[s.pc.toNat]? = some w → decode w = .ok i →
    step s = exec i { s with
      ir := w
      mar := s.pc
      pc := s.pc + 1
      opcode := opcodeField w
      operand1 := operand1Field w
      operand2 := operand2Field w
      cs := .execute
      event := .none }

/-- R34, R86, R116: the same under any configuration: a word that decodes to an instruction under it runs as that
instruction; and `step` is the machine under the default configuration. -/
def Obligations.InstructionRunsUnderAnyConfig : Prop :=
  (∀ (c : Config) (s : State) (w : Word) (i : Instr),
    s.cs = .fetch → s.pm[s.pc.toNat]? = some w → decodeWith c w = .ok i →
      stepInstruction c s = exec i { s with
        ir := w
        mar := s.pc
        pc := s.pc + 1
        opcode := opcodeField w
        operand1 := operand1Field w
        operand2 := operand2Field w
        cs := .execute
        event := .none }) ∧
  ∀ s : State, step s = stepInstruction defaultConfig s

/-- R34, R86: the opcode map does not matter to a program written in mnemonics. Two machines, each with the program's words
under its own configuration, start in the same run, and every instruction cycle, from whatever cycle state and whatever it
ends in, keeps them in the same run, with the same kind of event. One cycle of one instruction needs no more than its own
two words to agree. -/
def Obligations.OpcodeMapIsTransparent : Prop :=
  (∀ (c c' : Config) (s s' : State), SameRun c c' s s' →
    ∃ t t', stepInstruction c s = .next t ∧ stepInstruction c' s' = .next t' ∧ SameRun c c' t t' ∧
      t'.event.kind = t.event.kind) ∧
  (∀ (c c' : Config) (prog : List Instr), Config.Ok c → Config.Ok c' →
    (∀ i ∈ prog, c.declared i.mnemonic = true ∧ c'.declared i.mnemonic = true) →
      SameRun c c' (State.launch (prog.map (encodeWith c))) (State.launch (prog.map (encodeWith c')))) ∧
  (∀ (c c' : Config) (s s' : State) (i : Instr),
    Config.Ok c → Config.Ok c' → c.declared i.mnemonic = true → c'.declared i.mnemonic = true →
    SameToProgram s s' → s.cs = .fetch →
    s.pm[s.pc.toNat]? = some (encodeWith c i) → s'.pm[s'.pc.toNat]? = some (encodeWith c' i) →
      ∃ t t', stepInstruction c s = .next t ∧ stepInstruction c' s' = .next t' ∧ SameToProgram t t' ∧
        t'.event.kind = t.event.kind)

/-- R116: begun in the middle of an instruction, a step makes the transitions that are left of it. -/
def Obligations.StepFinishesInstruction : Prop :=
  ∀ (s : State) (i : Instr),
    (s.cs = .decode → decode s.ir = .ok i →
      step s = exec i { s with
        opcode := opcodeField s.ir
        operand1 := operand1Field s.ir
        operand2 := operand2Field s.ir
        cs := .execute
        event := .none }) ∧
    (s.cs = .execute → decodeFields defaultConfig s.opcode s.operand1 s.operand2 = .ok i → step s = exec i s)

/-- R116: the loop of `step_instruction()`: one transition, and again unless the state before was Execute or the event is a
BoundsViolation. -/
def Obligations.StepInstructionLoop : Prop :=
  ∀ (c : Config) (s : State), ∃ t, stepState c s = .next t ∧
    stepInstruction c s = if s.cs = .execute ∨ t.event.isBounds then .next t else stepInstruction c t

/-- R116, R250: an instruction whose word is populated takes exactly three transitions from Fetch. -/
def Obligations.ThreeTransitions : Prop :=
  ∀ (c : Config) (s : State) (w : Word), s.cs = .fetch → s.pm[s.pc.toNat]? = some w →
    ∃ t u, stepState c s = .next t ∧ t.cs = .decode ∧ stepState c t = .next u ∧ u.cs = .execute ∧
      stepInstruction c s = stepState c u

/-- R116, R211, R220: a whole instruction cycle over an undeclared word ends in the launch state of the same program, with
the opcode in the event. -/
def Obligations.UndeclaredInstructionCycle : Prop :=
  ∀ (c : Config) (s : State) (w : Word),
    s.cs = .fetch → s.pm[s.pc.toNat]? = some w → Undeclared c (opcodeField w) →
      stepInstruction c s = .next { State.launch s.pm with
        event := .unknownOpcode (opcodeField w)
        raised := recordEvent (.unknownOpcode (opcodeField w)) s.raised }

/-- R116, R213: a step at an unpopulated index makes one failing transition and changes nothing. -/
def Obligations.StepBeyondProgram : Prop :=
  ∀ s : State, s.cs = .fetch → s.pm.length ≤ s.pc.toNat →
    step s = .next { s with event := .progFetch s.pc, raised := recordEvent (.progFetch s.pc) s.raised }

/-- R216: after a BoundsViolation of the core nothing has changed and every further step repeats the event; a host write
does not end this, a reset does. -/
def Obligations.HoldUntilReset : Prop :=
  ∀ (c : Config) (s t : State), stepState c s = .next t → t.event.isBounds = true →
    SameMachine s t ∧ stepState c t = .next t ∧ stepInstruction c t = .next t ∧
    (∀ (a : Nat) (v : Byte), ∃ u, stepState c (writeDataMemory a v t) = .next u ∧
      u.event = t.event ∧ SameMachine (writeDataMemory a v t) u) ∧
    (∀ w : Word, t.pm[0]? = some w →
      ∃ u, stepState c (hostReset t) = .next u ∧ u.event = .none ∧ u.ir = w ∧ u.cs = .decode)

/-- R52, R110, R226: every step from every state has a next state: the machine has no terminal state, and no instruction
reaches a data address that does not exist. -/
def Obligations.EveryStepHasNext : Prop := ∀ s : State, ∃ t, step s = .next t

/-! ## Control -/

/-- R140: NOP's word, its Execute effect, and its whole instruction cycle. -/
def Obligations.NopEffect : Prop :=
  ∀ (x y : Byte) (s : State),
    encode (.nop x y) = packWord 0x00 x y ∧
    exec (.nop x y) s = .next { s with cs := .fetch, event := .none } ∧
    (s.cs = .fetch → s.pm[s.pc.toNat]? = some (packWord 0x00 x y) →
      step s = .next { s with
        pc := s.pc + 1
        mar := s.pc
        ir := packWord 0x00 x y
        opcode := 0x00
        operand1 := x
        operand2 := y
        event := .none })

/-- R141: JMP's word, its Execute effect, its whole instruction cycle, and the Fetch after it, at a populated target and at
an unpopulated one. -/
def Obligations.JmpEffect : Prop :=
  ∀ (k y : Byte) (s : State),
    encode (.jmp k y) = packWord 0x01 k y ∧
    exec (.jmp k y) s = .next { s with pc := k, cs := .fetch, event := .none } ∧
    (s.cs = .fetch → s.pm[s.pc.toNat]? = some (packWord 0x01 k y) →
      ∃ t, step s = .next t ∧
        t = { s with
          pc := k
          mar := s.pc
          ir := packWord 0x01 k y
          opcode := 0x01
          operand1 := k
          operand2 := y
          event := .none } ∧
        (∀ w : Word, s.pm[k.toNat]? = some w →
          ∃ u, stepState defaultConfig t = .next u ∧ u.ir = w ∧ u.mar = k ∧ u.pc = k + 1 ∧ u.event = .none) ∧
        (s.pm.length ≤ k.toNat →
          ∃ u, stepState defaultConfig t = .next u ∧ SameMachine t u ∧ u.event = .progFetch k))

/-! ## Data transfer -/

/-- R130: LDI's word and its Execute effect. -/
def Obligations.LdiEffect : Prop :=
  ∀ (d k : Byte) (s : State),
    encode (.ldi d k) = packWord 0x02 d k ∧
    (∀ h : d.toNat < 32,
      exec (.ldi d k) s = .next { s with regs := s.regs.set d.toNat k h, cs := .fetch, event := .none }) ∧
    (31 < d.toNat →
      exec (.ldi d k) s = .next { s with
        event := .regIndex .first d
        raised := recordEvent (.regIndex .first d) s.raised })

/-- R131: MOV's word and its Execute effect. -/
def Obligations.MovEffect : Prop :=
  ∀ (d r : Byte) (s : State),
    encode (.mov d r) = packWord 0x03 d r ∧
    (∀ (h : d.toNat < 32) (h' : r.toNat < 32),
      exec (.mov d r) s = .next { s with
        regs := s.regs.set d.toNat (s.regs[r.toNat]'h') h
        cs := .fetch
        event := .none }) ∧
    (31 < d.toNat →
      exec (.mov d r) s = .next { s with
        event := .regIndex .first d
        raised := recordEvent (.regIndex .first d) s.raised }) ∧
    (d.toNat < 32 → 31 < r.toNat →
      exec (.mov d r) s = .next { s with
        event := .regIndex .second r
        raised := recordEvent (.regIndex .second r) s.raised })

/-- R132: IN's word and its Execute effect. -/
def Obligations.InEffect : Prop :=
  ∀ (d a : Byte) (s : State),
    encode (.in_ d a) = packWord 0x04 d a ∧
    (∀ h : d.toNat < 32,
      exec (.in_ d a) s = .next { s with
        regs := s.regs.set d.toNat (Memory.read s.dm a.toNat) h
        cs := .fetch
        event := .none }) ∧
    (31 < d.toNat →
      exec (.in_ d a) s = .next { s with
        event := .regIndex .first d
        raised := recordEvent (.regIndex .first d) s.raised })

/-- R133: OUT's word and its Execute effect: the byte at the address, and every other byte as before. -/
def Obligations.OutEffect : Prop :=
  ∀ (a r : Byte) (s : State), Memory.wf s.dm = true →
    encode (.out a r) = packWord 0x05 a r ∧
    (∀ h : r.toNat < 32,
      ∃ dm : Memory, exec (.out a r) s = .next { s with dm := dm, cs := .fetch, event := .none } ∧
        Memory.wf dm = true ∧
        ∀ x : Nat, Memory.read dm x = if x = a.toNat then s.regs[r.toNat]'h else Memory.read s.dm x) ∧
    (31 < r.toNat →
      exec (.out a r) s = .next { s with
        event := .regIndex .second r
        raised := recordEvent (.regIndex .second r) s.raised })

/-- R57, R61: what OUT stores at an address, IN reads back from it, in any register and through any of the cells. -/
def Obligations.OutThenIn : Prop :=
  ∀ (a r d : Byte) (s t u : State) (hr : r.toNat < 32) (hd : d.toNat < 32), Memory.wf s.dm = true →
    exec (.out a r) s = .next t → exec (.in_ d a) t = .next u →
      u.readReg ⟨d.toNat, hd⟩ = s.readReg ⟨r.toNat, hr⟩ ∧ SameData t u

/-- R214: BoundsViolation(RegIndex, n, v) is raised by exactly the instructions with a register operand above 31, n and v
those of the first such operand (LDI, MOV and IN: operand 1; MOV and OUT: operand 2); no state changes, the cycle state
included, and the next transition raises the event again. -/
def Obligations.RegisterIndexViolation : Prop :=
  (∀ (i : Instr) (s : State) (n : OperandNo) (v : Byte),
    ((∃ t, exec i s = .next t ∧ t.event = .regIndex n v) ↔ FailingOperand i n v) ∧
    (FailingOperand i n v → ∃ t, exec i s = .next t ∧ t.event = .regIndex n v ∧ SameMachine s t)) ∧
  (∀ (c : Config) (s t : State) (n : OperandNo) (v : Byte),
    s.cs = .execute → stepState c s = .next t → t.event = .regIndex n v →
      SameMachine s t ∧ t.cs = .execute ∧ stepState c t = .next t)

/-- R219: the order of the checks at Execute: the class of the opcode before the operands, the first operand before the
second. -/
def Obligations.CheckOrder : Prop :=
  ∀ (c : Config) (s : State), Config.Ok c → s.cs = .execute →
    (Undeclared c s.opcode → ∃ t, stepState c s = .next t ∧ t.event = .unknownOpcode s.opcode) ∧
    (∀ m : Mnemonic, c.declared m = true → m.implemented = false → s.opcode = c.opc m →
      ∃ t, stepState c s = .next t ∧ t.event = .unimplemented s.opcode) ∧
    (∀ f : FurtherMnemonic, f ∈ c.further → s.opcode = f.value →
      ∃ t, stepState c s = .next t ∧ t.event = .unimplemented s.opcode) ∧
    (s.opcode = c.opc .MOV → 31 < s.operand1.toNat →
      ∃ t, stepState c s = .next t ∧ t.event = .regIndex .first s.operand1) ∧
    (s.opcode = c.opc .MOV → s.operand1.toNat < 32 → 31 < s.operand2.toNat →
      ∃ t, stepState c s = .next t ∧ t.event = .regIndex .second s.operand2)

/-! ## Declared but unimplemented -/

/-- R151, R152: STS, LDS. -/
def Obligations.MemoryFamily : Prop := DeclaredOnly .sts 0x06 ∧ DeclaredOnly .lds 0x07

/-- R153 to R159: AND, ANDI, OR, ORI, XOR, XORI, CLR. -/
def Obligations.LogicalFamily : Prop :=
  DeclaredOnly .and 0x08 ∧ DeclaredOnly .andi 0x09 ∧ DeclaredOnly .or 0x0A ∧ DeclaredOnly .ori 0x0B ∧
  DeclaredOnly .xor 0x0C ∧ DeclaredOnly .xori 0x0D ∧ DeclaredOnly .clr 0x0E

/-- R160 to R165: ADD, ADDI, SUB, SUBI, INC, DEC. -/
def Obligations.ArithmeticFamily : Prop :=
  DeclaredOnly .add 0x0F ∧ DeclaredOnly .addi 0x10 ∧ DeclaredOnly .sub 0x11 ∧ DeclaredOnly .subi 0x12 ∧
  DeclaredOnly .inc 0x13 ∧ DeclaredOnly .dec 0x14

/-- R166, R167: CP, CPI. -/
def Obligations.CompareFamily : Prop := DeclaredOnly .cp 0x15 ∧ DeclaredOnly .cpi 0x16

/-- R168 to R173: BREQ, BRNE, BRGE, BRGT, BRLE, BRLT. -/
def Obligations.BranchFamily : Prop :=
  DeclaredOnly .breq 0x17 ∧ DeclaredOnly .brne 0x18 ∧ DeclaredOnly .brge 0x19 ∧ DeclaredOnly .brgt 0x1A ∧
  DeclaredOnly .brle 0x1B ∧ DeclaredOnly .brlt 0x1C

/-- R174 to R177: CALL, RET, PUSH, POP. -/
def Obligations.CallAndStackFamilies : Prop :=
  DeclaredOnly .call 0x1D ∧ DeclaredOnly .ret 0x1E ∧ DeclaredOnly .push 0x1F ∧ DeclaredOnly .pop 0x20

/-- R178, R179: SEI, CLI. -/
def Obligations.InterruptEnableFamily : Prop := DeclaredOnly .sei 0x21 ∧ DeclaredOnly .cli 0x22

/-- R111, R112, R116, R150: the whole instruction cycle of every declared-but-unimplemented instruction: execution goes on
with the next word, the decoded fields show the instruction, the event is Unimplemented with its opcode value, and
registers, status register and memories are as before; under another configuration the same of every further mnemonic it
declares. That the model runs such an instruction at all, where U4 advises a
refusal, is its own choice (log 1, DESIGN CHOICE). -/
def Obligations.UnimplementedInstructionCycle : Prop :=
  (∀ (i : Instr) (s : State), i.mnemonic.implemented = false → s.cs = .fetch →
    s.pm[s.pc.toNat]? = some (encode i) →
      step s = .next { s with
        pc := s.pc + 1
        mar := s.pc
        ir := encode i
        opcode := opc i.mnemonic
        operand1 := i.operand1
        operand2 := i.operand2
        event := .unimplemented (opc i.mnemonic)
        raised := recordEvent (.unimplemented (opc i.mnemonic)) s.raised }) ∧
  (∀ (c : Config) (f : FurtherMnemonic) (a b : Byte) (s : State), Config.Ok c → f ∈ c.further → s.cs = .fetch →
    s.pm[s.pc.toNat]? = some (f.encode a b) →
      stepInstruction c s = .next { s with
        pc := s.pc + 1
        mar := s.pc
        ir := f.encode a b
        opcode := f.value
        operand1 := a
        operand2 := b
        event := .unimplemented f.value
        raised := recordEvent (.unimplemented f.value) s.raised })

/-! ## Frames -/

/-- R118, R130, R131, R132: LDI, MOV and IN change no register but their destination, no other state and no byte of data
memory. -/
def Obligations.FrameOfRegisterWriters : Prop :=
  ∀ (i : Instr) (d : Byte) (s t : State),
    ((∃ k, i = .ldi d k) ∨ (∃ r, i = .mov d r) ∨ (∃ a, i = .in_ d a)) → exec i s = .next t →
      (∀ j : Fin Config.nreg, j.val ≠ d.toNat → t.readReg j = s.readReg j) ∧
      t.pc = s.pc ∧ SameSpecials s t ∧ SameData s t

/-- R118, R133: OUT changes no register, no other state, and no byte of data memory outside the one at the address its
meaning computes. -/
def Obligations.FrameOfOut : Prop :=
  ∀ (a r : Byte) (s t : State), Memory.wf s.dm = true → exec (.out a r) s = .next t →
    (∀ j : Fin Config.nreg, t.readReg j = s.readReg j) ∧ t.pc = s.pc ∧ SameSpecials s t ∧
    ∀ x : Nat, x ≠ dataAddress a → Memory.read t.dm x = Memory.read s.dm x

/-- R140, R141, R150: NOP, JMP and every declared-but-unimplemented instruction (STS, LDS, AND, ANDI, OR, ORI, XOR, XORI,
CLR, ADD, ADDI, SUB, SUBI, INC, DEC, CP, CPI, BREQ, BRNE, BRGE, BRGT, BRLE, BRLT, CALL, RET, PUSH, POP, SEI, CLI) change no
register, no other state and no byte of data memory; only JMP changes the program counter. -/
def Obligations.FrameOfTheOthers : Prop :=
  ∀ (i : Instr) (s t : State),
    (i.mnemonic = .NOP ∨ i.mnemonic = .JMP ∨ i.mnemonic.implemented = false) → exec i s = .next t →
      (∀ j : Fin Config.nreg, t.readReg j = s.readReg j) ∧ SameSpecials s t ∧ SameData s t ∧
      (i.mnemonic ≠ .JMP → t.pc = s.pc)

/-- R27: no instruction reads or writes the status register: with another value in it, the instruction does the same and
leaves that value. The register is zero in every state reached from a launch. -/
def Obligations.StatusRegisterUnused : Prop :=
  (∀ (i : Instr) (s t : State) (v : BitVec 5), exec i s = .next t →
    t.sr = s.sr ∧ exec i { s with sr := v } = .next { t with sr := v }) ∧
  (∀ (c : Config) (prog : List Word) (s : State), Reachable c prog s → s.sr = 0)

/-- R32, R64: no operation of the host and no instruction writes program memory. -/
def Obligations.ProgramMemoryImmutable : Prop :=
  (∀ (c : Config) (op : HostOp) (s t : State), perform c op s = .next t → t.pm = s.pm) ∧
  (∀ (s t : State), step s = .next t → t.pm = s.pm)

/-- R52: unless the step resets the machine, it leaves every data byte from address 256 on as it was. -/
def Obligations.HighDataUnreached : Prop :=
  ∀ s t : State, Memory.wf s.dm = true → step s = .next t → ¬ IsReset t.event →
    ∀ a : Nat, 256 ≤ a → Memory.read t.dm a = Memory.read s.dm a

/-! ## Whole-machine statements -/

/-- The engine's invariant holds at launch with any program, and so right after reset. -/
def Obligations.InvAtLaunch : Prop := Inv State.reset ∧ ∀ prog : List Word, Inv (State.launch prog)

/-- R24, R28, R29, R30, R33, R112, R217: every step keeps the invariant: data memory in canonical form, instruction
register, memory address register, program counter and decoded fields consistent with the cycle state, the event record a
set that holds the last event. -/
def Obligations.StepKeepsInv : Prop :=
  ∀ s t : State, Inv s → step s = .next t → Inv t

/-- R190: every operation of the host keeps the invariant, a single transition and a host write included. -/
def Obligations.HostOperationsKeepInv : Prop :=
  ∀ (c : Config) (op : HostOp) (s t : State), Inv s → perform c op s = .next t → Inv t

/-- R20, R27, R52: a step does not depend on the status register, on the memory address register or on data bytes from
256 on: two states that agree on the rest step to states that agree on the rest, with the same event. -/
def Obligations.UnreadStateIsInert : Prop :=
  ∀ s s' : State, Memory.wf s.dm = true → Memory.wf s'.dm = true → SameActive s s' →
    ∃ t t', step s = .next t ∧ step s' = .next t' ∧ SameActive t t' ∧ t'.event = t.event

/-- R246: software that keeps its duties raises no event: from every state of its run a step has a next state, raises
nothing, and leaves a state of its run. -/
def Obligations.DutifulSoftwareRunsEventFree : Prop :=
  ∀ (c : Config) (s : State), Guarded c s → ∃ t, stepInstruction c s = .next t ∧ Guarded c t

/-- R244, R246: a dutiful program's launch is a state of its run. -/
def Obligations.DutifulLaunch : Prop :=
  ∀ (c : Config) (prog : List Word), Dutiful c prog → Guarded c (State.launch prog)

/-- R217: the record of events only grows, across every operation of the host, a reset included, and holds the event an
operation returns. -/
def Obligations.EventRecordIsSticky : Prop :=
  ∀ (c : Config) (op : HostOp) (s t : State), perform c op s = .next t →
    (∀ e ∈ s.raised, e ∈ t.raised) ∧ (op ≠ .snapshot → t.event ≠ .none → t.event ∈ t.raised)

/-! ## Reset, host interface, status register, naming -/

/-- R240, R241: what `reset()` leaves in every piece of state, whatever the state before; twice is once; the next
transition fetches word 0. -/
def Obligations.ResetValues : Prop :=
  ∀ (c : Config) (s : State),
    (∀ j : Fin Config.nreg, (hostReset s).readReg j = 0x00) ∧
    (∀ a : Nat, Memory.read (hostReset s).dm a = 0x00) ∧
    (hostReset s).pc = 0x00 ∧ (hostReset s).sr = 0b00000 ∧ (hostReset s).ir = 0x000000 ∧ (hostReset s).mar = 0x00 ∧
    (hostReset s).opcode = 0x00 ∧ (hostReset s).operand1 = 0x00 ∧ (hostReset s).operand2 = 0x00 ∧
    (hostReset s).cs = .fetch ∧ (hostReset s).pm = s.pm ∧
    hostReset (hostReset s) = hostReset s ∧
    (∀ s' : State, s'.pm = s.pm → SameMachine (hostReset s) (hostReset s')) ∧
    (∀ w : Word, s.pm[0]? = some w → ∃ t, stepState c (hostReset s) = .next t ∧ t.ir = w)

/-- R196: the host's write of one byte, and of an address that does not exist. -/
def Obligations.HostWrite : Prop :=
  ∀ (a : Nat) (v : Byte) (s : State), Memory.wf s.dm = true →
    (a ≤ 1999 →
      ∃ dm : Memory, writeDataMemory a v s = { s with dm := dm, event := .none } ∧ Memory.wf dm = true ∧
        ∀ x : Nat, Memory.read dm x = if x = a then v else Memory.read s.dm x) ∧
    (1999 < a →
      writeDataMemory a v s = { s with event := .dataAddr a, raised := recordEvent (.dataAddr a) s.raised })

/-- R200, the operations an edge performs by `rst`, `step` and `ext_we`; the refusal of `step` with `ext_we` is the model's
(log 8). -/
def Obligations.ClockEdge : Prop :=
  ∀ (c : Config) (p : PortsIn) (s : State),
    (p.rst = true → clockEdge c p s = perform c .reset s) ∧
    (p.rst = false → p.step = true → p.extWe = false → clockEdge c p s = perform c .stepState s) ∧
    (p.rst = false → p.step = false → p.extWe = true →
      clockEdge c p s = perform c (.writeDataMemory p.extAddr.toNat p.extData) s) ∧
    (p.rst = false → p.step = false → p.extWe = false → ∃ t, clockEdge c p s = .next t ∧ SameMachine s t) ∧
    (p.rst = false → p.step = true → p.extWe = true → clockEdge c p s = .refused .stepWithHostWrite)

/-- R193: `snapshot()` changes nothing and shows, in the order of the rule, the names of the decoded opcode and of the cycle
state, the program counter, the three fields of the instruction register, the five status bits, every register, the three
I/O cells, the memory address register, the decoded fields and every data byte. Under the default configuration the status
bits are bits 0 to 4 and the cells addresses 0 to 2, and after reset the names are NOP and Fetch. Program memory is not
shown: the model's choice (log 13, DESIGN CHOICE). -/
def Obligations.SnapshotShows : Prop :=
  (∀ (c : Config) (s : State),
    perform c .snapshot s = .next s ∧
    (snapshot c s).opcodeName = opcodeName c s.opcode ∧ (snapshot c s).cycleStateName = cycleStateName s.cs ∧
    (snapshot c s).pc = s.pc ∧
    packWord (snapshot c s).irOpcode (snapshot c s).irOperand1 (snapshot c s).irOperand2 = s.ir ∧
    (snapshot c s).carry = s.sr.getLsbD (c.statusPosition .carry).val ∧
    (snapshot c s).overflow = s.sr.getLsbD (c.statusPosition .overflow).val ∧
    (snapshot c s).zero = s.sr.getLsbD (c.statusPosition .zero).val ∧
    (snapshot c s).negative = s.sr.getLsbD (c.statusPosition .negative).val ∧
    (snapshot c s).interrupt = s.sr.getLsbD (c.statusPosition .interrupt).val ∧
    (∀ j : Fin Config.nreg, (snapshot c s).registers[j] = s.readReg j) ∧
    (snapshot c s).ddrb = Memory.read s.dm c.ddrb.toNat ∧ (snapshot c s).portb = Memory.read s.dm c.portb.toNat ∧
    (snapshot c s).pinb = Memory.read s.dm c.pinb.toNat ∧
    (snapshot c s).mar = s.mar ∧ (snapshot c s).opcode = s.opcode ∧ (snapshot c s).operand1 = s.operand1 ∧
    (snapshot c s).operand2 = s.operand2 ∧
    (snapshot c s).dataMemory.length = 2000 ∧
    (∀ a : Nat, a < 2000 → (snapshot c s).dataMemory[a]? = some (Memory.read s.dm a))) ∧
  (∀ s : State,
    (snapshot defaultConfig s).carry = s.sr.getLsbD 0 ∧ (snapshot defaultConfig s).overflow = s.sr.getLsbD 1 ∧
    (snapshot defaultConfig s).zero = s.sr.getLsbD 2 ∧ (snapshot defaultConfig s).negative = s.sr.getLsbD 3 ∧
    (snapshot defaultConfig s).interrupt = s.sr.getLsbD 4 ∧
    (snapshot defaultConfig s).ddrb = Memory.read s.dm 0 ∧ (snapshot defaultConfig s).portb = Memory.read s.dm 1 ∧
    (snapshot defaultConfig s).pinb = Memory.read s.dm 2) ∧
  (snapshot defaultConfig State.reset).opcodeName = "NOP" ∧
  (snapshot defaultConfig State.reset).cycleStateName = "Fetch"

/-- R26: testing a status bit reads that bit of the register; setting and clearing it, seen through testing the bits, change
that bit alone; nothing else changes. -/
def Obligations.StatusBitOperations : Prop :=
  ∀ (b c : Fin 5) (s : State),
    srTest b s = s.sr.getLsbD b.val ∧
    srTest c (srSet b s) = (if c = b then true else srTest c s) ∧
    srTest c (srClear b s) = (if c = b then false else srTest c s) ∧
    { srSet b s with sr := s.sr } = s ∧ { srClear b s with sr := s.sr } = s

/-- R93: `opcode_name` gives the mnemonic of R86's table for every declared value, under any configuration, and Unknown for
every other; under the default map these are the values up to 0x22 and those from 0x23 on. -/
def Obligations.OpcodeNames : Prop :=
  (∀ c : Config, Config.Ok c →
    (∀ m : Mnemonic, c.declared m = true → opcodeName c (c.opc m) = mnemonicName m) ∧
    (∀ f : FurtherMnemonic, f ∈ c.further → opcodeName c f.value = f.name) ∧
    (∀ op : Byte, Undeclared c op → opcodeName c op = "Unknown")) ∧
  (List.range 35).map (fun n => opcodeName defaultConfig (BitVec.ofNat 8 n)) =
    ["NOP", "JMP", "LDI", "MOV", "IN", "OUT", "STS", "LDS", "AND", "ANDI", "OR", "ORI", "XOR", "XORI",
     "CLR", "ADD", "ADDI", "SUB", "SUBI", "INC", "DEC", "CP", "CPI", "BREQ", "BRNE", "BRGE", "BRGT", "BRLE",
     "BRLT", "CALL", "RET", "PUSH", "POP", "SEI", "CLI"] ∧
  ∀ op : Byte, 0x23 ≤ op.toNat → opcodeName defaultConfig op = "Unknown"

/-- R96: `format_binary` renders the value: as many digits as the larger of the two widths, each a binary digit, and read
as a binary numeral, most significant digit first, they are the value. -/
def Obligations.FormatBinary : Prop :=
  ∀ value width : Nat,
    formatBinary value width = String.ofList (binaryDigits value width) ∧
    (binaryDigits value width).length = max (if value = 0 then 1 else 1 + Nat.log 2 value) width ∧
    (∀ c ∈ binaryDigits value width, c = '0' ∨ c = '1') ∧
    (binaryDigits value width).foldl (fun n c => 2 * n + (if c = '1' then 1 else 0)) 0 = value

/-- The model's loading of one word (log 4): with the word of an instruction placed, the very next step runs that
instruction (R113, R116, R198). -/
def Obligations.PlacedWordRuns : Prop :=
  ∀ (i : Instr) (s : State), ∃ t : State,
    step (s.withFetchWord 24 (encode i).toNat) = exec i t ∧ t.regs = s.regs ∧ t.dm = s.dm ∧ t.sr = s.sr ∧
    t.pc = s.pc + 1 ∧ t.mar = s.pc ∧ t.ir = encode i ∧ t.cs = .execute ∧ t.raised = s.raised
end

