-- ==== Sys2Proof/Laws/Encoding.lean ====
section
/-! SUPPORT. The fields of a packed word, and what the classification of an opcode answers. -/

namespace Sys2Proof

theorem opcodeField_toNat (w : Word) : (opcodeField w).toNat = w.toNat / 65536 % 256 := by
  simp [opcodeField, Nat.shiftRight_eq_div_pow]

theorem operand1Field_toNat (w : Word) : (operand1Field w).toNat = w.toNat / 256 % 256 := by
  simp [operand1Field, Nat.shiftRight_eq_div_pow]

theorem operand2Field_toNat (w : Word) : (operand2Field w).toNat = w.toNat % 256 := by
  simp [operand2Field]

theorem packWord_toNat (op a b : Byte) : (packWord op a b).toNat = op.toNat * 65536 + a.toNat * 256 + b.toNat := by
  simp only [packWord, BitVec.toNat_ofNat]
  omega

@[simp] theorem opcodeField_packWord (op a b : Byte) : opcodeField (packWord op a b) = op := by
  apply BitVec.eq_of_toNat_eq
  rw [opcodeField_toNat, packWord_toNat]
  omega

@[simp] theorem operand1Field_packWord (op a b : Byte) : operand1Field (packWord op a b) = a := by
  apply BitVec.eq_of_toNat_eq
  rw [operand1Field_toNat, packWord_toNat]
  omega

@[simp] theorem operand2Field_packWord (op a b : Byte) : operand2Field (packWord op a b) = b := by
  apply BitVec.eq_of_toNat_eq
  rw [operand2Field_toNat, packWord_toNat]
  omega

/-- A word is its three fields. -/
theorem packWord_fields (w : Word) : packWord (opcodeField w) (operand1Field w) (operand2Field w) = w := by
  apply BitVec.eq_of_toNat_eq
  rw [packWord_toNat, opcodeField_toNat, operand1Field_toNat, operand2Field_toNat]
  omega

theorem fields_encodeWith (c : Config) (i : Instr) :
    opcodeField (encodeWith c i) = c.opc i.mnemonic ∧ operand1Field (encodeWith c i) = i.operand1 ∧
    operand2Field (encodeWith c i) = i.operand2 := by
  simp [encodeWith]

/-- Every mnemonic stands in the list of the table's mnemonics. -/
theorem Mnemonic.mem_all (m : Mnemonic) : m ∈ Mnemonic.all := by
  cases m <;> decide

/-- An instruction is made of its mnemonic and its two fields. -/
@[simp] theorem Instr.make_parts (i : Instr) : Instr.make i.mnemonic i.operand1 i.operand2 = i := by
  cases i <;> rfl

@[simp] theorem Instr.mnemonic_make (m : Mnemonic) (a b : Byte) : (Instr.make m a b).mnemonic = m := by
  cases m <;> rfl

@[simp] theorem Instr.operand1_make (m : Mnemonic) (a b : Byte) : (Instr.make m a b).operand1 = a := by
  cases m <;> rfl

@[simp] theorem Instr.operand2_make (m : Mnemonic) (a b : Byte) : (Instr.make m a b).operand2 = b := by
  cases m <;> rfl

/-- What the lookup of an opcode value answers. -/
theorem mnemonicOf_some {c : Config} {op : Byte} {m : Mnemonic} (h : mnemonicOf c op = some m) :
    c.declared m = true ∧ c.opc m = op := by
  simpa using List.find?_some h

theorem mnemonicOf_none {c : Config} {op : Byte} (h : mnemonicOf c op = none) {m : Mnemonic} (hd : c.declared m = true) :
    c.opc m ≠ op := by
  intro hm
  have := List.find?_eq_none.mp h m (Mnemonic.mem_all m)
  simp [hd, hm] at this

/-- Everything the classification of an opcode can answer (R85), and what it then says of the value. -/
theorem classOf_cases (c : Config) (op : Byte) :
    (∃ m, classOf c op = .instruction m ∧ c.declared m = true ∧ c.opc m = op) ∨
    (∃ f, classOf c op = .further f.name ∧ f ∈ c.further ∧ f.value = op) ∨
    (classOf c op = .undeclared ∧ Undeclared c op) := by
  unfold classOf
  cases hm : mnemonicOf c op with
  | some m => exact .inl ⟨m, rfl, mnemonicOf_some hm⟩
  | none =>
    cases hf : furtherOf c op with
    | some f => exact .inr (.inl ⟨f, rfl, List.mem_of_find?_eq_some hf, by simpa using List.find?_some hf⟩)
    | none => exact .inr (.inr ⟨rfl, fun m hd => mnemonicOf_none hm hd, fun f h => by
        simpa using List.find?_eq_none.mp hf f h⟩)

theorem classOf_undeclared {c : Config} {op : Byte} (h : Undeclared c op) : classOf c op = .undeclared := by
  obtain ⟨m, -, hd, hm⟩ | ⟨f, -, hf, hv⟩ | ⟨h', -⟩ := classOf_cases c op
  · exact absurd hm (h.1 m hd)
  · exact absurd hv (h.2 f hf)
  · exact h'

/-- Under an allowed configuration a declared mnemonic is what its value is classified as. -/
theorem classOf_opc {c : Config} (hok : Config.Ok c) {m : Mnemonic} (hd : c.declared m = true) :
    classOf c (c.opc m) = .instruction m := by
  obtain ⟨n, h, hn, hv⟩ | ⟨f, -, hf, hv⟩ | ⟨-, hu⟩ := classOf_cases c (c.opc m)
  · rw [h, hok.2.1 n m hn hd hv]
  · exact absurd hv.symm (hok.2.2.2.1 m f hd hf)
  · exact absurd rfl (hu.1 m hd)

theorem classOf_further {c : Config} (hok : Config.Ok c) {f : FurtherMnemonic} (hf : f ∈ c.further) :
    classOf c f.value = .further f.name := by
  obtain ⟨n, -, hn, hv⟩ | ⟨g, h, hg, hv⟩ | ⟨-, hu⟩ := classOf_cases c f.value
  · exact absurd hv (hok.2.2.2.1 n f hn hf)
  · rw [h, hok.2.2.2.2.1 g f hg hf (.inr hv)]
  · exact absurd rfl (hu.2 f hf)

/-- What the decoder answers when it finds an instruction: a declared one, with the fields it was given. -/
theorem decodeFields_ok {c : Config} {op a b : Byte} {i : Instr} (h : decodeFields c op a b = .ok i) :
    c.opc i.mnemonic = op ∧ i.operand1 = a ∧ i.operand2 = b ∧ c.declared i.mnemonic = true ∧
    classOf c op = .instruction i.mnemonic := by
  unfold decodeFields at h
  obtain ⟨m, h', hd, hm⟩ | ⟨f, h', -, -⟩ | ⟨h', -⟩ := classOf_cases c op <;> rw [h'] at h <;> cases h
  simp [hd, hm, h']

/-- What it answers when it finds none: the further mnemonic, or the value that no declared mnemonic has. -/
theorem decodeFields_error {c : Config} {op a b : Byte} {e : DecodeError} (h : decodeFields c op a b = .error e) :
    (∃ f, e = .furtherMnemonic f.name ∧ f ∈ c.further ∧ f.value = op) ∨ (e = .unknownOpcode op ∧ Undeclared c op) := by
  unfold decodeFields at h
  obtain ⟨m, h', -, -⟩ | ⟨f, h', hf⟩ | ⟨h', hu⟩ := classOf_cases c op <;> rw [h'] at h <;> cases h
  · exact .inl ⟨f, rfl, hf⟩
  · exact .inr ⟨rfl, hu⟩

theorem decodeFields_undeclared {c : Config} {op : Byte} (a b : Byte) (h : Undeclared c op) :
    decodeFields c op a b = .error (.unknownOpcode op) := by
  simp [decodeFields, classOf_undeclared h]

end Sys2Proof
end

