-- ==== Sys2Proof/Laws/Memory.lean ====
section
/-! SUPPORT. The laws of data memory: what a write leaves at each address, and that it keeps the canonical form. -/

namespace Sys2Proof.Machine

theorem Memory.read_put (a : Nat) (v : Byte) (rest : Memory) (x : Nat)
    (h : x = a → Memory.read rest x = unlistedByte) :
    Memory.read (Memory.put a v rest) x = if x = a then v else Memory.read rest x := by
  unfold Memory.put
  by_cases hv : v = unlistedByte <;> by_cases hx : x = a
  · simp_all
  · simp_all
  · simp [hv, hx, Memory.read]
  · simp [hv, hx, Memory.read, Ne.symm hx]

/-- An address below every listed one reads as the unlisted byte. -/
theorem Memory.read_below {low : Nat} {m : Memory} (h : Memory.wfFrom low m = true) {a : Nat} (ha : a < low) :
    Memory.read m a = unlistedByte := by
  induction m generalizing low with
  | nil => rfl
  | cons c rest ih =>
    obtain ⟨k, v⟩ := c
    simp only [Memory.wfFrom, Bool.and_eq_true, decide_eq_true_eq] at h
    have hk : k ≠ a := by omega
    simp [Memory.read, hk, ih h.2 (by omega)]

theorem Memory.wfFrom_le {low low' : Nat} {m : Memory} (hle : low' ≤ low) (h : Memory.wfFrom low m = true) :
    Memory.wfFrom low' m = true := by
  cases m with
  | nil => rfl
  | cons c rest =>
    obtain ⟨k, v⟩ := c
    simp only [Memory.wfFrom, Bool.and_eq_true, decide_eq_true_eq] at h ⊢
    exact ⟨⟨⟨by omega, h.1.1.2⟩, h.1.2⟩, h.2⟩

theorem Memory.put_wfFrom {low a : Nat} {v : Byte} {rest : Memory} (hlow : low ≤ a) (ha : a < Config.dmemSize)
    (h : Memory.wfFrom (a + 1) rest = true) : Memory.wfFrom low (Memory.put a v rest) = true := by
  unfold Memory.put
  split
  · exact Memory.wfFrom_le (by omega) h
  · simp_all [Memory.wfFrom]

theorem Memory.write_wfFrom {low : Nat} {m : Memory} (h : Memory.wfFrom low m = true) {a : Nat} {v : Byte}
    (hlow : low ≤ a) (ha : a < Config.dmemSize) : Memory.wfFrom low (Memory.write m a v) = true := by
  induction m generalizing low with
  | nil => exact Memory.put_wfFrom hlow ha rfl
  | cons c rest ih =>
    obtain ⟨k, w⟩ := c
    have h' := h
    simp only [Memory.wfFrom, Bool.and_eq_true, decide_eq_true_eq] at h
    unfold Memory.write
    split
    · refine Memory.put_wfFrom hlow ha ?_
      simp only [Memory.wfFrom, Bool.and_eq_true, decide_eq_true_eq]
      exact ⟨⟨⟨by omega, h.1.1.2⟩, h.1.2⟩, h.2⟩
    · split
      · rename_i hk
        subst hk
        exact Memory.put_wfFrom hlow ha h.2
      · simp only [Memory.wfFrom, Bool.and_eq_true, decide_eq_true_eq]
        exact ⟨⟨⟨h.1.1.1, h.1.1.2⟩, h.1.2⟩, ih h.2 (by omega)⟩

/-- A write inside the memory keeps the canonical form. -/
theorem Memory.write_wf {m : Memory} (h : Memory.wf m = true) {a : Nat} {v : Byte} (ha : a < Config.dmemSize) :
    Memory.wf (Memory.write m a v) = true :=
  Memory.write_wfFrom h (Nat.zero_le a) ha

/-- Reset's memory has the canonical form. -/
theorem Memory.reset_wf : Memory.wf State.reset.dm = true := rfl

/-- What every address reads as after a write. -/
theorem Memory.read_write {m : Memory} {low : Nat} (h : Memory.wfFrom low m = true) (a : Nat) (v : Byte) (x : Nat) :
    Memory.read (Memory.write m a v) x = if x = a then v else Memory.read m x := by
  induction m generalizing low with
  | nil => exact Memory.read_put a v [] x (fun _ => rfl)
  | cons c rest ih =>
    obtain ⟨k, w⟩ := c
    have h' := h
    simp only [Memory.wfFrom, Bool.and_eq_true, decide_eq_true_eq] at h
    unfold Memory.write
    split
    · rename_i hak
      refine Memory.read_put a v _ x (fun hx => ?_)
      subst hx
      have hk : k ≠ x := by omega
      simp [Memory.read, hk, Memory.read_below h.2 (show x < k + 1 by omega)]
    · split
      · rename_i hk
        subst hk
        rw [Memory.read_put a v rest x (fun hx => by subst hx; exact Memory.read_below h.2 (by omega))]
        by_cases hx : x = a
        · simp [hx]
        · simp [hx, Memory.read, Ne.symm hx]
      · rename_i h1 h2
        simp only [Memory.read, ih h.2]
        by_cases hx : x = a
        · subst hx
          have : k ≠ x := by omega
          simp [this]
        · simp [hx]

end Sys2Proof.Machine
end

