-- ==== Sys2Proof/Laws/State.lean ====
section
/-! SUPPORT. What each update of the state leaves in each field, so that no proof unfolds a record update. -/

namespace Sys2Proof.Machine

section
variable (s : State)

@[simp] theorem State.writeReg_regs (i : Fin Config.nreg) (v : Byte) : (s.writeReg i v).regs = s.regs.set i v := rfl
@[simp] theorem State.writeReg_pc (i : Fin Config.nreg) (v : Byte) : (s.writeReg i v).pc = s.pc := rfl
@[simp] theorem State.writeReg_sr (i : Fin Config.nreg) (v : Byte) : (s.writeReg i v).sr = s.sr := rfl
@[simp] theorem State.writeReg_ir (i : Fin Config.nreg) (v : Byte) : (s.writeReg i v).ir = s.ir := rfl
@[simp] theorem State.writeReg_mar (i : Fin Config.nreg) (v : Byte) : (s.writeReg i v).mar = s.mar := rfl
@[simp] theorem State.writeReg_opcode (i : Fin Config.nreg) (v : Byte) : (s.writeReg i v).opcode = s.opcode := rfl
@[simp] theorem State.writeReg_operand1 (i : Fin Config.nreg) (v : Byte) : (s.writeReg i v).operand1 = s.operand1 := rfl
@[simp] theorem State.writeReg_operand2 (i : Fin Config.nreg) (v : Byte) : (s.writeReg i v).operand2 = s.operand2 := rfl
@[simp] theorem State.writeReg_cs (i : Fin Config.nreg) (v : Byte) : (s.writeReg i v).cs = s.cs := rfl
@[simp] theorem State.writeReg_dm (i : Fin Config.nreg) (v : Byte) : (s.writeReg i v).dm = s.dm := rfl
@[simp] theorem State.writeReg_pm (i : Fin Config.nreg) (v : Byte) : (s.writeReg i v).pm = s.pm := rfl
@[simp] theorem State.writeReg_event (i : Fin Config.nreg) (v : Byte) : (s.writeReg i v).event = s.event := rfl
@[simp] theorem State.writeReg_raised (i : Fin Config.nreg) (v : Byte) : (s.writeReg i v).raised = s.raised := rfl

@[simp] theorem State.setPc_regs (p : Byte) : (s.setPc p).regs = s.regs := rfl
@[simp] theorem State.setPc_pc (p : Byte) : (s.setPc p).pc = p := rfl
@[simp] theorem State.setPc_sr (p : Byte) : (s.setPc p).sr = s.sr := rfl
@[simp] theorem State.setPc_ir (p : Byte) : (s.setPc p).ir = s.ir := rfl
@[simp] theorem State.setPc_mar (p : Byte) : (s.setPc p).mar = s.mar := rfl
@[simp] theorem State.setPc_opcode (p : Byte) : (s.setPc p).opcode = s.opcode := rfl
@[simp] theorem State.setPc_operand1 (p : Byte) : (s.setPc p).operand1 = s.operand1 := rfl
@[simp] theorem State.setPc_operand2 (p : Byte) : (s.setPc p).operand2 = s.operand2 := rfl
@[simp] theorem State.setPc_cs (p : Byte) : (s.setPc p).cs = s.cs := rfl
@[simp] theorem State.setPc_dm (p : Byte) : (s.setPc p).dm = s.dm := rfl
@[simp] theorem State.setPc_pm (p : Byte) : (s.setPc p).pm = s.pm := rfl
@[simp] theorem State.setPc_event (p : Byte) : (s.setPc p).event = s.event := rfl
@[simp] theorem State.setPc_raised (p : Byte) : (s.setPc p).raised = s.raised := rfl

@[simp] theorem State.quiet_regs : (s.quiet).regs = s.regs := rfl
@[simp] theorem State.quiet_pc : (s.quiet).pc = s.pc := rfl
@[simp] theorem State.quiet_sr : (s.quiet).sr = s.sr := rfl
@[simp] theorem State.quiet_ir : (s.quiet).ir = s.ir := rfl
@[simp] theorem State.quiet_mar : (s.quiet).mar = s.mar := rfl
@[simp] theorem State.quiet_opcode : (s.quiet).opcode = s.opcode := rfl
@[simp] theorem State.quiet_operand1 : (s.quiet).operand1 = s.operand1 := rfl
@[simp] theorem State.quiet_operand2 : (s.quiet).operand2 = s.operand2 := rfl
@[simp] theorem State.quiet_cs : (s.quiet).cs = s.cs := rfl
@[simp] theorem State.quiet_dm : (s.quiet).dm = s.dm := rfl
@[simp] theorem State.quiet_pm : (s.quiet).pm = s.pm := rfl
@[simp] theorem State.quiet_event : (s.quiet).event = .none := rfl
@[simp] theorem State.quiet_raised : (s.quiet).raised = s.raised := rfl

@[simp] theorem State.endExecute_regs : (s.endExecute).regs = s.regs := rfl
@[simp] theorem State.endExecute_pc : (s.endExecute).pc = s.pc := rfl
@[simp] theorem State.endExecute_sr : (s.endExecute).sr = s.sr := rfl
@[simp] theorem State.endExecute_ir : (s.endExecute).ir = s.ir := rfl
@[simp] theorem State.endExecute_mar : (s.endExecute).mar = s.mar := rfl
@[simp] theorem State.endExecute_opcode : (s.endExecute).opcode = s.opcode := rfl
@[simp] theorem State.endExecute_operand1 : (s.endExecute).operand1 = s.operand1 := rfl
@[simp] theorem State.endExecute_operand2 : (s.endExecute).operand2 = s.operand2 := rfl
@[simp] theorem State.endExecute_cs : (s.endExecute).cs = .fetch := rfl
@[simp] theorem State.endExecute_dm : (s.endExecute).dm = s.dm := rfl
@[simp] theorem State.endExecute_pm : (s.endExecute).pm = s.pm := rfl
@[simp] theorem State.endExecute_event : (s.endExecute).event = .none := rfl
@[simp] theorem State.endExecute_raised : (s.endExecute).raised = s.raised := rfl

@[simp] theorem State.raise_regs (e : Event) : (s.raise e).regs = s.regs := rfl
@[simp] theorem State.raise_pc (e : Event) : (s.raise e).pc = s.pc := rfl
@[simp] theorem State.raise_sr (e : Event) : (s.raise e).sr = s.sr := rfl
@[simp] theorem State.raise_ir (e : Event) : (s.raise e).ir = s.ir := rfl
@[simp] theorem State.raise_mar (e : Event) : (s.raise e).mar = s.mar := rfl
@[simp] theorem State.raise_opcode (e : Event) : (s.raise e).opcode = s.opcode := rfl
@[simp] theorem State.raise_operand1 (e : Event) : (s.raise e).operand1 = s.operand1 := rfl
@[simp] theorem State.raise_operand2 (e : Event) : (s.raise e).operand2 = s.operand2 := rfl
@[simp] theorem State.raise_cs (e : Event) : (s.raise e).cs = s.cs := rfl
@[simp] theorem State.raise_dm (e : Event) : (s.raise e).dm = s.dm := rfl
@[simp] theorem State.raise_pm (e : Event) : (s.raise e).pm = s.pm := rfl
@[simp] theorem State.raise_event (e : Event) : (s.raise e).event = e := rfl
@[simp] theorem State.raise_raised (e : Event) : (s.raise e).raised = recordEvent e s.raised := rfl

@[simp] theorem State.resetAll_regs : (s.resetAll).regs = Vector.replicate Config.nreg 0 := rfl
@[simp] theorem State.resetAll_pc : (s.resetAll).pc = 0 := rfl
@[simp] theorem State.resetAll_sr : (s.resetAll).sr = 0 := rfl
@[simp] theorem State.resetAll_ir : (s.resetAll).ir = 0 := rfl
@[simp] theorem State.resetAll_mar : (s.resetAll).mar = 0 := rfl
@[simp] theorem State.resetAll_opcode : (s.resetAll).opcode = 0 := rfl
@[simp] theorem State.resetAll_operand1 : (s.resetAll).operand1 = 0 := rfl
@[simp] theorem State.resetAll_operand2 : (s.resetAll).operand2 = 0 := rfl
@[simp] theorem State.resetAll_cs : (s.resetAll).cs = .fetch := rfl
@[simp] theorem State.resetAll_dm : (s.resetAll).dm = [] := rfl
@[simp] theorem State.resetAll_pm : (s.resetAll).pm = s.pm := rfl
@[simp] theorem State.resetAll_event : (s.resetAll).event = s.event := rfl
@[simp] theorem State.resetAll_raised : (s.resetAll).raised = s.raised := rfl

@[simp] theorem State.fetched_regs (w : Word) : (s.fetched w).regs = s.regs := rfl
@[simp] theorem State.fetched_pc (w : Word) : (s.fetched w).pc = s.pc + 1 := rfl
@[simp] theorem State.fetched_sr (w : Word) : (s.fetched w).sr = s.sr := rfl
@[simp] theorem State.fetched_ir (w : Word) : (s.fetched w).ir = w := rfl
@[simp] theorem State.fetched_mar (w : Word) : (s.fetched w).mar = s.pc := rfl
@[simp] theorem State.fetched_opcode (w : Word) : (s.fetched w).opcode = s.opcode := rfl
@[simp] theorem State.fetched_operand1 (w : Word) : (s.fetched w).operand1 = s.operand1 := rfl
@[simp] theorem State.fetched_operand2 (w : Word) : (s.fetched w).operand2 = s.operand2 := rfl
@[simp] theorem State.fetched_cs (w : Word) : (s.fetched w).cs = .decode := rfl
@[simp] theorem State.fetched_dm (w : Word) : (s.fetched w).dm = s.dm := rfl
@[simp] theorem State.fetched_pm (w : Word) : (s.fetched w).pm = s.pm := rfl
@[simp] theorem State.fetched_event (w : Word) : (s.fetched w).event = .none := rfl
@[simp] theorem State.fetched_raised (w : Word) : (s.fetched w).raised = s.raised := rfl

@[simp] theorem State.decoded_regs : (s.decoded).regs = s.regs := rfl
@[simp] theorem State.decoded_pc : (s.decoded).pc = s.pc := rfl
@[simp] theorem State.decoded_sr : (s.decoded).sr = s.sr := rfl
@[simp] theorem State.decoded_ir : (s.decoded).ir = s.ir := rfl
@[simp] theorem State.decoded_mar : (s.decoded).mar = s.mar := rfl
@[simp] theorem State.decoded_opcode : (s.decoded).opcode = opcodeField s.ir := rfl
@[simp] theorem State.decoded_operand1 : (s.decoded).operand1 = operand1Field s.ir := rfl
@[simp] theorem State.decoded_operand2 : (s.decoded).operand2 = operand2Field s.ir := rfl
@[simp] theorem State.decoded_cs : (s.decoded).cs = .execute := rfl
@[simp] theorem State.decoded_dm : (s.decoded).dm = s.dm := rfl
@[simp] theorem State.decoded_pm : (s.decoded).pm = s.pm := rfl
@[simp] theorem State.decoded_event : (s.decoded).event = .none := rfl
@[simp] theorem State.decoded_raised : (s.decoded).raised = s.raised := rfl

@[simp] theorem srSet_regs (b : Fin 5) : (srSet b s).regs = s.regs := rfl
@[simp] theorem srSet_pc (b : Fin 5) : (srSet b s).pc = s.pc := rfl
@[simp] theorem srSet_sr (b : Fin 5) : (srSet b s).sr = s.sr ||| statusMask b := rfl
@[simp] theorem srSet_ir (b : Fin 5) : (srSet b s).ir = s.ir := rfl
@[simp] theorem srSet_mar (b : Fin 5) : (srSet b s).mar = s.mar := rfl
@[simp] theorem srSet_opcode (b : Fin 5) : (srSet b s).opcode = s.opcode := rfl
@[simp] theorem srSet_operand1 (b : Fin 5) : (srSet b s).operand1 = s.operand1 := rfl
@[simp] theorem srSet_operand2 (b : Fin 5) : (srSet b s).operand2 = s.operand2 := rfl
@[simp] theorem srSet_cs (b : Fin 5) : (srSet b s).cs = s.cs := rfl
@[simp] theorem srSet_dm (b : Fin 5) : (srSet b s).dm = s.dm := rfl
@[simp] theorem srSet_pm (b : Fin 5) : (srSet b s).pm = s.pm := rfl
@[simp] theorem srSet_event (b : Fin 5) : (srSet b s).event = s.event := rfl
@[simp] theorem srSet_raised (b : Fin 5) : (srSet b s).raised = s.raised := rfl
@[simp] theorem srClear_regs (b : Fin 5) : (srClear b s).regs = s.regs := rfl
@[simp] theorem srClear_pc (b : Fin 5) : (srClear b s).pc = s.pc := rfl
@[simp] theorem srClear_sr (b : Fin 5) : (srClear b s).sr = s.sr &&& ~~~(statusMask b) := rfl
@[simp] theorem srClear_ir (b : Fin 5) : (srClear b s).ir = s.ir := rfl
@[simp] theorem srClear_mar (b : Fin 5) : (srClear b s).mar = s.mar := rfl
@[simp] theorem srClear_opcode (b : Fin 5) : (srClear b s).opcode = s.opcode := rfl
@[simp] theorem srClear_operand1 (b : Fin 5) : (srClear b s).operand1 = s.operand1 := rfl
@[simp] theorem srClear_operand2 (b : Fin 5) : (srClear b s).operand2 = s.operand2 := rfl
@[simp] theorem srClear_cs (b : Fin 5) : (srClear b s).cs = s.cs := rfl
@[simp] theorem srClear_dm (b : Fin 5) : (srClear b s).dm = s.dm := rfl
@[simp] theorem srClear_pm (b : Fin 5) : (srClear b s).pm = s.pm := rfl
@[simp] theorem srClear_event (b : Fin 5) : (srClear b s).event = s.event := rfl
@[simp] theorem srClear_raised (b : Fin 5) : (srClear b s).raised = s.raised := rfl

@[simp] theorem hostReset_regs : (hostReset s).regs = Vector.replicate Config.nreg 0 := rfl
@[simp] theorem hostReset_pc : (hostReset s).pc = 0 := rfl
@[simp] theorem hostReset_sr : (hostReset s).sr = 0 := rfl
@[simp] theorem hostReset_ir : (hostReset s).ir = 0 := rfl
@[simp] theorem hostReset_mar : (hostReset s).mar = 0 := rfl
@[simp] theorem hostReset_opcode : (hostReset s).opcode = 0 := rfl
@[simp] theorem hostReset_operand1 : (hostReset s).operand1 = 0 := rfl
@[simp] theorem hostReset_operand2 : (hostReset s).operand2 = 0 := rfl
@[simp] theorem hostReset_cs : (hostReset s).cs = .fetch := rfl
@[simp] theorem hostReset_dm : (hostReset s).dm = [] := rfl
@[simp] theorem hostReset_pm : (hostReset s).pm = s.pm := rfl
@[simp] theorem hostReset_event : (hostReset s).event = .none := rfl
@[simp] theorem hostReset_raised : (hostReset s).raised = s.raised := rfl

@[simp] theorem State.launch_regs (prog : List Word) : (State.launch prog).regs = Vector.replicate Config.nreg 0 := rfl
@[simp] theorem State.launch_pc (prog : List Word) : (State.launch prog).pc = 0 := rfl
@[simp] theorem State.launch_sr (prog : List Word) : (State.launch prog).sr = 0 := rfl
@[simp] theorem State.launch_ir (prog : List Word) : (State.launch prog).ir = 0 := rfl
@[simp] theorem State.launch_mar (prog : List Word) : (State.launch prog).mar = 0 := rfl
@[simp] theorem State.launch_opcode (prog : List Word) : (State.launch prog).opcode = 0 := rfl
@[simp] theorem State.launch_operand1 (prog : List Word) : (State.launch prog).operand1 = 0 := rfl
@[simp] theorem State.launch_operand2 (prog : List Word) : (State.launch prog).operand2 = 0 := rfl
@[simp] theorem State.launch_cs (prog : List Word) : (State.launch prog).cs = .fetch := rfl
@[simp] theorem State.launch_dm (prog : List Word) : (State.launch prog).dm = [] := rfl
@[simp] theorem State.launch_pm (prog : List Word) : (State.launch prog).pm = prog := rfl
@[simp] theorem State.launch_event (prog : List Word) : (State.launch prog).event = .none := rfl
@[simp] theorem State.launch_raised (prog : List Word) : (State.launch prog).raised = [] := rfl

end

end Sys2Proof.Machine
end

