-- ==== Sys2Proof/Laws/Ops.lean ====
section
/-! SUPPORT. One lemma per shared operation that says once everything it can answer; the meanings and the transitions
after them. Later proofs cite these and do not unfold the operations. -/

namespace Sys2Proof.Machine

/-! ## Registers -/

theorem State.readReg_writeReg (s : State) (i j : Fin Config.nreg) (v : Byte) :
    (s.writeReg i v).readReg j = if j = i then v else s.readReg j := by
  simp only [State.readReg, State.writeReg_regs, Fin.getElem_fin, Vector.getElem_set, Fin.ext_iff]
  by_cases h : i.val = j.val <;> simp [h, eq_comm]

/-! ## The event record -/

theorem mem_recordEvent {e x : Event} {seen : List Event} :
    x ∈ recordEvent e seen ↔ x = e ∨ x ∈ seen := by
  unfold recordEvent
  split
  · constructor
    · exact .inr
    · rintro (rfl | h) <;> assumption
  · simp

theorem recordEvent_nodup {e : Event} {seen : List Event} (h : seen.Nodup) : (recordEvent e seen).Nodup := by
  unfold recordEvent
  split
  · exact h
  · simp_all

@[simp] theorem recordEvent_twice (e : Event) (seen : List Event) :
    recordEvent e (recordEvent e seen) = recordEvent e seen := by
  have h : e ∈ recordEvent e seen := mem_recordEvent.mpr (.inl rfl)
  rw [recordEvent, if_pos h]

@[simp] theorem recordEvent_ne_nil (e : Event) (seen : List Event) : recordEvent e seen ≠ [] := by
  intro h
  have : e ∈ recordEvent e seen := mem_recordEvent.mpr (.inl rfl)
  rw [h] at this
  cases this

/-- Raising the same event again changes nothing more. -/
@[simp] theorem State.raise_raise (s : State) (e : Event) : (s.raise e).raise e = s.raise e := by
  simp [State.raise]

/-! ## Operand forms -/

theorem regOperand_of_lt {v : Byte} (n : OperandNo) (h : v.toNat < Config.nreg) :
    regOperand n v = .ok ⟨v.toNat, h⟩ := by
  simp [regOperand, h]

theorem regOperand_of_ge {v : Byte} (n : OperandNo) (h : ¬ v.toNat < Config.nreg) :
    regOperand n v = .error (.regIndex n v) := by
  simp [regOperand, h]

theorem withReg_of_lt {v : Byte} (n : OperandNo) (s : State) (k : Fin Config.nreg → Result)
    (h : v.toNat < Config.nreg) : withReg n v s k = k ⟨v.toNat, h⟩ := by
  simp [withReg, regOperand_of_lt n h]

theorem withReg_of_ge {v : Byte} (n : OperandNo) (s : State) (k : Fin Config.nreg → Result)
    (h : ¬ v.toNat < Config.nreg) : withReg n v s k = .next (s.raise (.regIndex n v)) := by
  simp [withReg, regOperand_of_ge n h, State.violate]

/-- The address of IN and OUT is always inside data memory (R52). -/
theorem dataAddress_lt (field : Byte) : dataAddress field < 256 := field.isLt

theorem isDataAddress_field (field : Byte) : isDataAddress (dataAddress field) = true :=
  decide_eq_true (Nat.lt_of_lt_of_le (dataAddress_lt field) (by decide))

theorem withLoaded_eq (field : Byte) (s : State) (k : Byte → Result) :
    withLoaded field s k = k (Memory.read s.dm (dataAddress field)) := by
  simp [withLoaded, State.memRead, isDataAddress_field]

theorem withStored_eq (field v : Byte) (s : State) (k : State → Result) :
    withStored field v s k = k { s with dm := Memory.write s.dm (dataAddress field) v } := by
  simp [withStored, State.memWrite, isDataAddress_field]

/-! ## The meanings -/

/-- Everything an Execute effect can be (R113): the normal end, where registers, the program counter and one data byte
below 256 may have changed; a BoundsViolation of an operand, which changes nothing; or Unimplemented. -/
theorem exec_cases (i : Instr) (s : State) :
    (∃ (regs : Vector Byte Config.nreg) (pc : Byte) (dm : Memory),
      exec i s = .next { s with regs := regs, pc := pc, dm := dm, cs := .fetch, event := .none } ∧
      (dm = s.dm ∨ ∃ (a v : Byte), dm = Memory.write s.dm a.toNat v) ∧
      (pc = s.pc ∨ ∃ x, i = .jmp pc x)) ∨
    (∃ n v, exec i s = .next (s.raise (.regIndex n v)) ∧ WellFormed i = false) ∨
    (exec i s = .next ({ s with cs := .fetch }.raise (.unimplemented s.opcode)) ∧ i.mnemonic.implemented = false) := by
  cases i
  case nop => exact .inl ⟨s.regs, s.pc, s.dm, rfl, .inl rfl, .inl rfl⟩
  case jmp t x => exact .inl ⟨s.regs, t, s.dm, rfl, .inl rfl, .inr ⟨x, rfl⟩⟩
  case ldi d k =>
    by_cases h : d.toNat < Config.nreg
    · exact .inl ⟨s.regs.set d.toNat k, s.pc, s.dm, withReg_of_lt .first s _ h, .inl rfl, .inl rfl⟩
    · exact .inr (.inl ⟨.first, d, withReg_of_ge .first s _ h, by simp [WellFormed, isRegIndex, h]⟩)
  case mov d r =>
    by_cases h : d.toNat < Config.nreg
    · by_cases h' : r.toNat < Config.nreg
      · exact .inl ⟨s.regs.set d.toNat (s.readReg ⟨r.toNat, h'⟩), s.pc, s.dm,
          (withReg_of_lt .first s _ h).trans (withReg_of_lt .second s _ h'), .inl rfl, .inl rfl⟩
      · exact .inr (.inl ⟨.second, r, (withReg_of_lt .first s _ h).trans (withReg_of_ge .second s _ h'),
          by simp [WellFormed, isRegIndex, h']⟩)
    · exact .inr (.inl ⟨.first, d, withReg_of_ge .first s _ h, by simp [WellFormed, isRegIndex, h]⟩)
  case in_ d a =>
    by_cases h : d.toNat < Config.nreg
    · exact .inl ⟨s.regs.set d.toNat (Memory.read s.dm (dataAddress a)), s.pc, s.dm,
        (withReg_of_lt .first s _ h).trans (withLoaded_eq a s _), .inl rfl, .inl rfl⟩
    · exact .inr (.inl ⟨.first, d, withReg_of_ge .first s _ h, by simp [WellFormed, isRegIndex, h]⟩)
  case out a r =>
    by_cases h : r.toNat < Config.nreg
    · exact .inl ⟨s.regs, s.pc, Memory.write s.dm (dataAddress a) (s.readReg ⟨r.toNat, h⟩),
        (withReg_of_lt .second s _ h).trans (withStored_eq a _ s _), .inr ⟨a, _, rfl⟩, .inl rfl⟩
    · exact .inr (.inl ⟨.second, r, withReg_of_ge .second s _ h, by simp [WellFormed, isRegIndex, h]⟩)
  all_goals exact .inr (.inr ⟨rfl, rfl⟩)

/-! ## The transitions -/

/-- What Fetch answers (R111, R213). -/
theorem fetchTransition_cases (s : State) :
    (∃ w, s.progRead s.pc = some w ∧ fetchTransition s = .next (s.fetched w)) ∨
    (s.progRead s.pc = none ∧ fetchTransition s = .next (s.raise (.progFetch s.pc))) := by
  unfold fetchTransition
  cases h : s.progRead s.pc with
  | some w => exact .inl ⟨w, rfl, rfl⟩
  | none => exact .inr ⟨rfl, rfl⟩

/-- What Execute answers (R113): the instruction of the decoded fields, Unimplemented for a further declared mnemonic, or the
reset. -/
theorem executeTransition_cases (c : Config) (s : State) :
    (∃ i, decodeFields c s.opcode s.operand1 s.operand2 = .ok i ∧ executeTransition c s = exec i s) ∨
    (∃ f, f ∈ c.further ∧ f.value = s.opcode ∧ classOf c s.opcode = .further f.name ∧
      executeTransition c s = .next ({ s with cs := .fetch }.raise (.unimplemented s.opcode))) ∨
    (Undeclared c s.opcode ∧ executeTransition c s = .next (s.resetAll.raise (.unknownOpcode s.opcode))) := by
  unfold executeTransition decodeFields
  obtain ⟨m, h, -⟩ | ⟨f, h, hf, hv⟩ | ⟨h, hu⟩ := classOf_cases c s.opcode <;> rw [h]
  · exact .inl ⟨_, rfl, rfl⟩
  · exact .inr (.inl ⟨f, hf, hv, rfl, rfl⟩)
  · exact .inr (.inr ⟨hu, rfl⟩)

/-- A transition that classifies the same opcode does the same instruction (R113). -/
theorem executeTransition_of_ok {c : Config} {s : State} {i : Instr}
    (h : decodeFields c s.opcode s.operand1 s.operand2 = .ok i) : executeTransition c s = exec i s := by
  obtain ⟨h1, h2, h3, -, h4⟩ := decodeFields_ok h
  simp [executeTransition, h4, ← h2, ← h3]

/-- Which transition the cycle state selects (R115). -/
theorem stepState_of_fetch {c : Config} {s : State} (h : s.cs = .fetch) : stepState c s = fetchTransition s := by
  simp [stepState, h]

theorem stepState_of_decode {c : Config} {s : State} (h : s.cs = .decode) : stepState c s = .next s.decoded := by
  simp [stepState, h, decodeTransition]

theorem stepState_of_execute {c : Config} {s : State} (h : s.cs = .execute) : stepState c s = executeTransition c s := by
  simp [stepState, h]

/-- A transition always has a next state (R110). -/
theorem stepState_next (c : Config) (s : State) : ∃ t, stepState c s = .next t := by
  cases h : s.cs with
  | fetch =>
    rw [stepState_of_fetch h]
    obtain ⟨w, -, h'⟩ | ⟨-, h'⟩ := fetchTransition_cases s <;> exact ⟨_, h'⟩
  | decode => exact ⟨_, stepState_of_decode h⟩
  | execute =>
    rw [stepState_of_execute h]
    obtain ⟨i, -, h'⟩ | ⟨_, -, -, -, h'⟩ | ⟨-, h'⟩ := executeTransition_cases c s
    · rw [h']
      obtain ⟨_, _, _, h, -, -⟩ | ⟨_, _, h, -⟩ | ⟨h, -⟩ := exec_cases i s <;> exact ⟨_, h⟩
    · exact ⟨_, h'⟩
    · exact ⟨_, h'⟩

/-! ## A step is a chain of transitions -/

/-- A property of pairs of states that every transition has, that holds of a state and itself and chains, holds of every
step: the one induction behind the claims about `step`. -/
theorem stepUntilExecuted_induction {c : Config} {R : State → State → Prop} (hrefl : ∀ s, R s s)
    (htrans : ∀ {s t u}, R s t → R t u → R s u) (hone : ∀ {s t}, stepState c s = .next t → R s t) :
    ∀ (n : Nat) {s t : State}, stepUntilExecuted c n s = .next t → R s t := by
  intro n
  induction n with
  | zero =>
    intro s t h
    cases h
    exact hrefl s
  | succ n ih =>
    intro s t h
    obtain ⟨u, hu⟩ := stepState_next c s
    rw [stepUntilExecuted, hu] at h
    dsimp only at h
    split at h
    · cases h
      exact hone hu
    · exact htrans (hone hu) (ih h)

end Sys2Proof.Machine
end

