-- ==== Sys2Proof/Laws/PerInstr.lean ====
section
/-! SUPPORT. The per-instruction family FieldsOfEncoding: the word of an instruction holds its opcode value and its two
operand fields, each in its place (spec/30_encoding.md R81, R86). One lemma per constructor. -/

namespace Sys2Proof.Laws.FieldsOfEncoding

/-- The three fields of the instruction's word. -/
def Statement (i : Instr) : Prop :=
  opcodeField (encode i) = opc i.mnemonic ∧ operand1Field (encode i) = i.operand1 ∧
  operand2Field (encode i) = i.operand2

theorem of_encodeWith (i : Instr) : Statement i := fields_encodeWith defaultConfig i

theorem nop (a b : Byte) : Statement (.nop a b) := of_encodeWith _
theorem jmp (a b : Byte) : Statement (.jmp a b) := of_encodeWith _
theorem ldi (a b : Byte) : Statement (.ldi a b) := of_encodeWith _
theorem mov (a b : Byte) : Statement (.mov a b) := of_encodeWith _
theorem in_ (a b : Byte) : Statement (.in_ a b) := of_encodeWith _
theorem out (a b : Byte) : Statement (.out a b) := of_encodeWith _
theorem sts (a b : Byte) : Statement (.sts a b) := of_encodeWith _
theorem lds (a b : Byte) : Statement (.lds a b) := of_encodeWith _
theorem and (a b : Byte) : Statement (.and a b) := of_encodeWith _
theorem andi (a b : Byte) : Statement (.andi a b) := of_encodeWith _
theorem or (a b : Byte) : Statement (.or a b) := of_encodeWith _
theorem ori (a b : Byte) : Statement (.ori a b) := of_encodeWith _
theorem xor (a b : Byte) : Statement (.xor a b) := of_encodeWith _
theorem xori (a b : Byte) : Statement (.xori a b) := of_encodeWith _
theorem clr (a b : Byte) : Statement (.clr a b) := of_encodeWith _
theorem add (a b : Byte) : Statement (.add a b) := of_encodeWith _
theorem addi (a b : Byte) : Statement (.addi a b) := of_encodeWith _
theorem sub (a b : Byte) : Statement (.sub a b) := of_encodeWith _
theorem subi (a b : Byte) : Statement (.subi a b) := of_encodeWith _
theorem inc (a b : Byte) : Statement (.inc a b) := of_encodeWith _
theorem dec (a b : Byte) : Statement (.dec a b) := of_encodeWith _
theorem cp (a b : Byte) : Statement (.cp a b) := of_encodeWith _
theorem cpi (a b : Byte) : Statement (.cpi a b) := of_encodeWith _
theorem breq (a b : Byte) : Statement (.breq a b) := of_encodeWith _
theorem brne (a b : Byte) : Statement (.brne a b) := of_encodeWith _
theorem brge (a b : Byte) : Statement (.brge a b) := of_encodeWith _
theorem brgt (a b : Byte) : Statement (.brgt a b) := of_encodeWith _
theorem brle (a b : Byte) : Statement (.brle a b) := of_encodeWith _
theorem brlt (a b : Byte) : Statement (.brlt a b) := of_encodeWith _
theorem call (a b : Byte) : Statement (.call a b) := of_encodeWith _
theorem ret (a b : Byte) : Statement (.ret a b) := of_encodeWith _
theorem push (a b : Byte) : Statement (.push a b) := of_encodeWith _
theorem pop (a b : Byte) : Statement (.pop a b) := of_encodeWith _
theorem sei (a b : Byte) : Statement (.sei a b) := of_encodeWith _
theorem cli (a b : Byte) : Statement (.cli a b) := of_encodeWith _

end Sys2Proof.Laws.FieldsOfEncoding
end

