-- ==== Sys2Proof/Laws/Step.lean ====
section
/-! SUPPORT. What one step is: which transitions it makes from each cycle state, and everything Execute can answer. -/

namespace Sys2Proof.Machine

theorem reg_bound {v : Byte} (h : ¬ v.toNat < Config.nreg) : 31 < v.toNat := Nat.not_lt.mp h

/-- A declared-but-unimplemented instruction raises Unimplemented with the decoded opcode (R150). -/
theorem exec_of_not_implemented {i : Instr} (h : i.mnemonic.implemented = false) (s : State) :
    exec i s = .next ({ s with cs := .fetch }.raise (.unimplemented s.opcode)) := by
  cases i <;> first | rfl | cases h

/-- An operand that names no register gives the same BoundsViolation in every state (R214). -/
theorem exec_of_not_wellFormed {i : Instr} (h : WellFormed i = false) :
    ∃ n v, 31 < v.toNat ∧ ((n = .first ∧ v = i.operand1) ∨ (n = .second ∧ v = i.operand2)) ∧
      ∀ s, exec i s = .next (s.raise (.regIndex n v)) := by
  cases i
  case ldi d k =>
    have hd : ¬ d.toNat < Config.nreg := by simpa [WellFormed, isRegIndex] using h
    exact ⟨.first, d, reg_bound hd, .inl ⟨rfl, rfl⟩, fun s => withReg_of_ge .first s _ hd⟩
  case in_ d a =>
    have hd : ¬ d.toNat < Config.nreg := by simpa [WellFormed, isRegIndex] using h
    exact ⟨.first, d, reg_bound hd, .inl ⟨rfl, rfl⟩, fun s => withReg_of_ge .first s _ hd⟩
  case out a r =>
    have hr : ¬ r.toNat < Config.nreg := by simpa [WellFormed, isRegIndex] using h
    exact ⟨.second, r, reg_bound hr, .inr ⟨rfl, rfl⟩, fun s => withReg_of_ge .second s _ hr⟩
  case mov d r =>
    by_cases hd : d.toNat < Config.nreg
    · have hr : ¬ r.toNat < Config.nreg := by simpa [WellFormed, isRegIndex, hd] using h
      exact ⟨.second, r, reg_bound hr, .inr ⟨rfl, rfl⟩,
        fun s => (withReg_of_lt .first s _ hd).trans (withReg_of_ge .second s _ hr)⟩
    · exact ⟨.first, d, reg_bound hd, .inl ⟨rfl, rfl⟩, fun s => withReg_of_ge .first s _ hd⟩
  all_goals cases h

/-- Everything the Execute transition can answer (R113): a normal end, a BoundsViolation of an operand, Unimplemented, or
the reset of an undeclared opcode. -/
theorem executeTransition_answers (c : Config) (s : State) :
    (∃ (regs : Vector Byte Config.nreg) (pc : Byte) (dm : Memory),
      executeTransition c s = .next { s with regs := regs, pc := pc, dm := dm, cs := .fetch, event := .none } ∧
      (dm = s.dm ∨ ∃ (a v : Byte), dm = Memory.write s.dm a.toNat v) ∧
      (pc = s.pc ∨ (s.opcode = c.opc .JMP ∧ pc = s.operand1))) ∨
    (∃ n v, executeTransition c s = .next (s.raise (.regIndex n v))) ∨
    executeTransition c s = .next ({ s with cs := .fetch }.raise (.unimplemented s.opcode)) ∨
    executeTransition c s = .next (s.resetAll.raise (.unknownOpcode s.opcode)) := by
  obtain ⟨i, hi, h⟩ | ⟨_, -, -, -, h⟩ | ⟨-, h⟩ := executeTransition_cases c s
  · obtain ⟨hop, h1, -⟩ := decodeFields_ok hi
    rw [h]
    obtain ⟨regs, pc, dm, h', hdm, hpc⟩ | ⟨n, v, h', -⟩ | ⟨h', -⟩ := exec_cases i s
    · refine .inl ⟨regs, pc, dm, h', hdm, hpc.imp id ?_⟩
      rintro ⟨x, rfl⟩
      exact ⟨hop.symm, h1⟩
    · exact .inr (.inl ⟨n, v, h'⟩)
    · exact .inr (.inr (.inl h'))
  · exact .inr (.inr (.inl h))
  · exact .inr (.inr (.inr h))

/-- What a step is from Execute: the one transition left (R116). -/
theorem stepInstruction_of_execute {c : Config} {s : State} (h : s.cs = .execute) :
    stepInstruction c s = executeTransition c s := by
  obtain ⟨t, ht⟩ := stepState_next c s
  rw [← stepState_of_execute h, ht]
  simp [stepInstruction, stepUntilExecuted, ht, h]

/-- From Decode: Decode and Execute. -/
theorem stepInstruction_of_decode {c : Config} {s : State} (h : s.cs = .decode) :
    stepInstruction c s = executeTransition c s.decoded := by
  obtain ⟨t, ht⟩ := stepState_next c s.decoded
  rw [← stepState_of_execute (s := s.decoded) rfl, ht]
  simp [stepInstruction, stepUntilExecuted, stepState_of_decode h, ht, h, Event.isBounds]

/-- From Fetch at a populated index: Fetch, Decode and Execute. -/
theorem stepInstruction_of_fetch {c : Config} {s : State} {w : Word} (h : s.cs = .fetch) (hw : s.progRead s.pc = some w) :
    stepInstruction c s = executeTransition c (s.fetched w).decoded := by
  have h1 : stepState c s = .next (s.fetched w) := by simp [stepState_of_fetch h, fetchTransition, hw]
  obtain ⟨t, ht⟩ := stepState_next c (s.fetched w).decoded
  rw [← stepState_of_execute (s := (s.fetched w).decoded) rfl, ht]
  simp [stepInstruction, stepUntilExecuted, h1, stepState_of_decode (s := s.fetched w) rfl, ht, h,
    Event.isBounds]

/-- From Fetch at an unpopulated index: the one failing transition. -/
theorem stepInstruction_of_fetch_none {c : Config} {s : State} (h : s.cs = .fetch) (hw : s.progRead s.pc = none) :
    stepInstruction c s = .next (s.raise (.progFetch s.pc)) := by
  have h1 : stepState c s = .next (s.raise (.progFetch s.pc)) := by
    simp [stepState_of_fetch h, fetchTransition, hw, State.violate]
  simp [stepInstruction, stepUntilExecuted, h1, Event.isBounds]

/-- A step is the failing Fetch, or the Execute transition of a state that Fetch and Decode prepared; preparing changes
neither registers, memories, status register nor record (R118). -/
theorem stepInstruction_cases (c : Config) (s : State) :
    (s.cs = .fetch ∧ s.progRead s.pc = none ∧ stepInstruction c s = .next (s.raise (.progFetch s.pc))) ∨
    (∃ p : State, stepInstruction c s = executeTransition c p ∧ p.cs = .execute ∧
      ((∃ w, s.cs = .fetch ∧ s.progRead s.pc = some w ∧ p = (s.fetched w).decoded) ∨
       (s.cs = .decode ∧ p = s.decoded) ∨ (s.cs = .execute ∧ p = s))) := by
  cases h : s.cs with
  | fetch =>
    cases hw : s.progRead s.pc with
    | none => exact .inl ⟨rfl, rfl, stepInstruction_of_fetch_none h hw⟩
    | some w => exact .inr ⟨_, stepInstruction_of_fetch h hw, rfl, .inl ⟨w, rfl, rfl, rfl⟩⟩
  | decode => exact .inr ⟨_, stepInstruction_of_decode h, rfl, .inr (.inl ⟨rfl, rfl⟩)⟩
  | execute => exact .inr ⟨s, stepInstruction_of_execute h, h, .inr (.inr ⟨rfl, rfl⟩)⟩

end Sys2Proof.Machine
end

