-- ==== Sys2Proof/Tests/Slice0.lean ====
section
/-! SUPPORT. Tests of the model on single steps, with expected results from spec/95_test_vectors.md (named in each test) or
by hand from the rules, and the witnesses of the statements' hypotheses. -/

namespace Sys2Proof.Tests

open Sys2Proof.Machine

/-- The state after reset with a program placed, at the given index. -/
def at_ (prog : List Word) (pc : Byte) : State := { State.reset with pm := prog, pc := pc }

/-- The state in Execute with the given decoded fields. -/
def executing (op a b : Byte) : State :=
  { State.reset with opcode := op, operand1 := a, operand2 := b, cs := .execute }

/-- The outcome is a next state with the property. -/
def nextIs (o : Result) (p : State → Bool) : Bool :=
  match o with
  | .next t => p t
  | .fault _ => false
  | .refused _ => false

/-- `x[i]` of a state. -/
def reg (s : State) (i : Nat) : Option Byte := s.regs[i]?

/-! ## Well-formedness: each check refuses an ill-formed term -/

theorem test_wf_ldi_destination : WellFormed (.ldi 32 1) = false := by decide
theorem test_wf_mov_destination : WellFormed (.mov 32 31) = false := by decide
theorem test_wf_mov_source : WellFormed (.mov 31 32) = false := by decide
theorem test_wf_in_destination : WellFormed (.in_ 255 2) = false := by decide
theorem test_wf_out_source : WellFormed (.out 0 32) = false := by decide
theorem test_wf_highest_register : WellFormed (.mov 31 31) = true := by decide

/-! ## Decoding: words written out from the encoding, opcode value of R86 then the two fields -/

theorem test_decode_nop : decode 0x00BEEF = .ok (.nop 0xBE 0xEF) := by decide
theorem test_decode_jmp : decode 0x0105FF = .ok (.jmp 0x05 0xFF) := by decide
theorem test_decode_ldi : decode 0x021001 = .ok (.ldi 16 0x01) := by decide
theorem test_decode_mov : decode 0x031110 = .ok (.mov 17 16) := by decide
theorem test_decode_in : decode 0x041002 = .ok (.in_ 16 0x02) := by decide
theorem test_decode_out : decode 0x050010 = .ok (.out 0x00 16) := by decide
theorem test_decode_sts : decode 0x061011 = .ok (.sts 0x10 0x11) := by decide
theorem test_decode_lds : decode 0x071011 = .ok (.lds 0x10 0x11) := by decide
theorem test_decode_and : decode 0x081011 = .ok (.and 0x10 0x11) := by decide
theorem test_decode_andi : decode 0x091011 = .ok (.andi 0x10 0x11) := by decide
theorem test_decode_or : decode 0x0A1011 = .ok (.or 0x10 0x11) := by decide
theorem test_decode_ori : decode 0x0B1011 = .ok (.ori 0x10 0x11) := by decide
theorem test_decode_xor : decode 0x0C1011 = .ok (.xor 0x10 0x11) := by decide
theorem test_decode_xori : decode 0x0D1011 = .ok (.xori 0x10 0x11) := by decide
theorem test_decode_clr : decode 0x0E1011 = .ok (.clr 0x10 0x11) := by decide
theorem test_decode_add : decode 0x0F1011 = .ok (.add 0x10 0x11) := by decide
theorem test_decode_addi : decode 0x101011 = .ok (.addi 0x10 0x11) := by decide
theorem test_decode_sub : decode 0x111011 = .ok (.sub 0x10 0x11) := by decide
theorem test_decode_subi : decode 0x121011 = .ok (.subi 0x10 0x11) := by decide
theorem test_decode_inc : decode 0x131011 = .ok (.inc 0x10 0x11) := by decide
theorem test_decode_dec : decode 0x141011 = .ok (.dec 0x10 0x11) := by decide
theorem test_decode_cp : decode 0x151011 = .ok (.cp 0x10 0x11) := by decide
theorem test_decode_cpi : decode 0x161011 = .ok (.cpi 0x10 0x11) := by decide
theorem test_decode_breq : decode 0x171011 = .ok (.breq 0x10 0x11) := by decide
theorem test_decode_brne : decode 0x181011 = .ok (.brne 0x10 0x11) := by decide
theorem test_decode_brge : decode 0x191011 = .ok (.brge 0x10 0x11) := by decide
theorem test_decode_brgt : decode 0x1A1011 = .ok (.brgt 0x10 0x11) := by decide
theorem test_decode_brle : decode 0x1B1011 = .ok (.brle 0x10 0x11) := by decide
theorem test_decode_brlt : decode 0x1C1011 = .ok (.brlt 0x10 0x11) := by decide
theorem test_decode_call : decode 0x1D1011 = .ok (.call 0x10 0x11) := by decide
theorem test_decode_ret : decode 0x1E1011 = .ok (.ret 0x10 0x11) := by decide
theorem test_decode_push : decode 0x1F1011 = .ok (.push 0x10 0x11) := by decide
theorem test_decode_pop : decode 0x201011 = .ok (.pop 0x10 0x11) := by decide
theorem test_decode_sei : decode 0x211011 = .ok (.sei 0x10 0x11) := by decide
theorem test_decode_cli : decode 0x221011 = .ok (.cli 0x10 0x11) := by decide
theorem test_decode_undeclared : decode 0xAABBCC = .error (.unknownOpcode 0xAA) := by decide
theorem test_decode_lowest_undeclared : decode 0x230000 = .error (.unknownOpcode 0x23) := by decide
theorem test_decode_two_bytes : decodeBytes [0x02, 0x10] = .error (.notOneWord 2) := by decide
theorem test_encode_out : encode (.out 0xFF 31) = 0x05FF1F := by decide
theorem test_table_word : decodeTableWord 24 0x0F0000 = some (.add 0 0) := by decide

/-! ## Transitions (V1 to V5) -/

/-- V1. -/
theorem test_fetch :
    nextIs (stepState defaultConfig (at_ [0, 0, 0, 0, 0, 0x021001] 5))
      (fun t => t.ir == 0x021001 && t.mar == 5 && t.pc == 6 && t.cs == .decode && t.event == .none) := by decide

/-- V2. -/
theorem test_decode_transition :
    nextIs (stepState defaultConfig { State.reset with ir := 0x021001, opcode := 1, operand1 := 5, cs := .decode })
      (fun t => t.opcode == 2 && t.operand1 == 0x10 && t.operand2 == 1 && t.cs == .execute) := by decide

/-- V4. -/
theorem test_fetch_beyond_program :
    nextIs (stepState defaultConfig (at_ [0, 0] 2)) (fun t => t.pc == 2 && t.cs == .fetch && t.event == .progFetch 2) := by decide

/-- V5. -/
theorem test_fetch_last_word :
    nextIs (stepState defaultConfig (at_ [0, 0] 1)) (fun t => t.pc == 2 && t.mar == 1 && t.cs == .decode) := by decide

/-! ## Instructions, each one step -/

/-- V30. -/
theorem test_nop :
    nextIs (step (at_ [0, 0x00BEEF] 1))
      (fun t => t.pc == 2 && t.mar == 1 && t.operand1 == 0xBE && t.operand2 == 0xEF && t.cs == .fetch) := by decide

/-- V32. -/
theorem test_jmp : nextIs (step (at_ [0x0105FF] 0)) (fun t => t.pc == 5 && t.mar == 0 && t.event == .none) := by decide

/-- V12: writing zero sets no flag. -/
theorem test_ldi :
    nextIs (step (at_ [0x021F00] 0)) (fun t => reg t 31 == some 0 && t.sr == 0 && t.pc == 1) := by decide

/-- V13. -/
theorem test_ldi_no_register :
    nextIs (stepState defaultConfig (executing 0x02 32 1)) (fun t => t.cs == .execute && t.event == .regIndex .first 32) := by decide

/-- V15. -/
theorem test_mov :
    nextIs (step { at_ [0x031110] 0 with regs := State.reset.regs.set 16 0x01 })
      (fun t => reg t 17 == some 1 && reg t 16 == some 1) := by decide

/-- V20: with both operands out of range the first is reported. -/
theorem test_mov_both_out_of_range :
    nextIs (stepState defaultConfig (executing 0x03 0x40 0x50)) (fun t => t.event == .regIndex .first 0x40) := by decide

/-- V22: the highest reachable address. -/
theorem test_in :
    nextIs (step { at_ [0x0401FF] 0 with dm := [(255, 0x80)] }) (fun t => reg t 1 == some 0x80) := by decide

/-- V27: data address 16 and register 16 are different cells. -/
theorem test_out :
    nextIs (step { at_ [0x051010] 0 with regs := State.reset.regs.set 16 0x42 })
      (fun t => Memory.read t.dm 16 == 0x42 && reg t 16 == some 0x42) := by decide

/-- V28. -/
theorem test_out_no_register :
    nextIs (stepState defaultConfig (executing 0x05 0 32)) (fun t => t.dm == [] && t.event == .regIndex .second 32) := by decide

/-! R151 to R179, the example of each rule: nothing but the engine's own registers changes, operands are not read. -/

/-- The example's start: `pc = 3`, two registers holding 5 and 3 (V36). -/
def declaredStart (w : Word) : State :=
  { at_ [0, 0, 0, w] 3 with regs := (State.reset.regs.set 16 5).set 17 3, sr := 0b01010 }

/-- The example's end. -/
def declaredEnd (op : Byte) (t : State) : Bool :=
  t.pc == 4 && t.cs == .fetch && t.opcode == op && t.operand1 == 0x10 && t.operand2 == 0x11 && reg t 16 == some 5 &&
  reg t 17 == some 3 && t.sr == 0b01010 && t.dm == [] && t.event == .unimplemented op

theorem test_sts : nextIs (step (declaredStart 0x061011)) (declaredEnd 0x06) := by decide
theorem test_lds : nextIs (step (declaredStart 0x071011)) (declaredEnd 0x07) := by decide
theorem test_and : nextIs (step (declaredStart 0x081011)) (declaredEnd 0x08) := by decide
theorem test_andi : nextIs (step (declaredStart 0x091011)) (declaredEnd 0x09) := by decide
theorem test_or : nextIs (step (declaredStart 0x0A1011)) (declaredEnd 0x0A) := by decide
theorem test_ori : nextIs (step (declaredStart 0x0B1011)) (declaredEnd 0x0B) := by decide
theorem test_xor : nextIs (step (declaredStart 0x0C1011)) (declaredEnd 0x0C) := by decide
theorem test_xori : nextIs (step (declaredStart 0x0D1011)) (declaredEnd 0x0D) := by decide
theorem test_clr : nextIs (step (declaredStart 0x0E1011)) (declaredEnd 0x0E) := by decide
theorem test_add : nextIs (step (declaredStart 0x0F1011)) (declaredEnd 0x0F) := by decide
theorem test_addi : nextIs (step (declaredStart 0x101011)) (declaredEnd 0x10) := by decide
theorem test_sub : nextIs (step (declaredStart 0x111011)) (declaredEnd 0x11) := by decide
theorem test_subi : nextIs (step (declaredStart 0x121011)) (declaredEnd 0x12) := by decide
theorem test_inc : nextIs (step (declaredStart 0x131011)) (declaredEnd 0x13) := by decide
theorem test_dec : nextIs (step (declaredStart 0x141011)) (declaredEnd 0x14) := by decide
theorem test_cp : nextIs (step (declaredStart 0x151011)) (declaredEnd 0x15) := by decide
theorem test_cpi : nextIs (step (declaredStart 0x161011)) (declaredEnd 0x16) := by decide
theorem test_breq : nextIs (step (declaredStart 0x171011)) (declaredEnd 0x17) := by decide
theorem test_brne : nextIs (step (declaredStart 0x181011)) (declaredEnd 0x18) := by decide
theorem test_brge : nextIs (step (declaredStart 0x191011)) (declaredEnd 0x19) := by decide
theorem test_brgt : nextIs (step (declaredStart 0x1A1011)) (declaredEnd 0x1A) := by decide
theorem test_brle : nextIs (step (declaredStart 0x1B1011)) (declaredEnd 0x1B) := by decide
theorem test_brlt : nextIs (step (declaredStart 0x1C1011)) (declaredEnd 0x1C) := by decide
theorem test_call : nextIs (step (declaredStart 0x1D1011)) (declaredEnd 0x1D) := by decide
theorem test_ret : nextIs (step (declaredStart 0x1E1011)) (declaredEnd 0x1E) := by decide
theorem test_push : nextIs (step (declaredStart 0x1F1011)) (declaredEnd 0x1F) := by decide
theorem test_pop : nextIs (step (declaredStart 0x201011)) (declaredEnd 0x20) := by decide
theorem test_sei : nextIs (step (declaredStart 0x211011)) (declaredEnd 0x21) := by decide
theorem test_cli : nextIs (step (declaredStart 0x221011)) (declaredEnd 0x22) := by decide

/-- V41: an undeclared opcode resets everything. -/
theorem test_undeclared :
    nextIs (step { at_ [0, 0, 0xFF0000] 2 with regs := State.reset.regs.set 1 0x55, dm := [(3, 0x55)] })
      (fun t => t.pc == 0 && t.ir == 0 && reg t 1 == some 0 && t.dm == [] && t.event == .unknownOpcode 0xFF) := by decide

/-- V44: operands above 31 make no BoundsViolation of an undeclared opcode. -/
theorem test_undeclared_operands :
    nextIs (stepState defaultConfig (executing 0xFF 0xFF 0xFF)) (fun t => t.event == .unknownOpcode 0xFF) := by decide

/-! ## Host operations, naming, ports -/

/-- V45 and the canonical form: a zero byte is not listed. -/
theorem test_host_write : (writeDataMemory 2 0xA5 State.reset).dm = [(2, 0xA5)] := by decide
theorem test_host_write_zero : (writeDataMemory 2 0 { State.reset with dm := [(1, 7), (2, 9)] }).dm = [(1, 7)] := by decide

/-- V47. -/
theorem test_host_write_beyond :
    (writeDataMemory 2000 1 State.reset).event = .dataAddr 2000 ∧ (writeDataMemory 2000 1 State.reset).dm = [] := by decide

/-- V46. -/
theorem test_host_write_last : (writeDataMemory 1999 1 State.reset).dm = [(1999, 1)] := by decide

/-- V51 to V53. -/
theorem test_opcode_names :
    opcodeName defaultConfig 0x02 = "LDI" ∧ opcodeName defaultConfig 0x0F = "ADD" ∧ opcodeName defaultConfig 0x23 = "Unknown" ∧ opcodeName defaultConfig 0xFF = "Unknown" := by
  decide

/-- V55. -/
theorem test_register_names :
    registerName 0 = "R0" ∧ registerName 16 = "R16" ∧ registerName 31 = "R31" ∧ registerName 32 = "Unknown" := by decide

/-- S7, V56, V57. -/
theorem test_format_binary :
    formatBinary 5 8 = "00000101" ∧ formatBinary 0 1 = "0" ∧ formatBinary 256 4 = "100000000" ∧
    formatBinary 0 0 = "0" ∧ formatBinary 1 0 = "1" ∧ formatBinary 255 4 = "11111111" := by decide

/-- R90, R97. -/
theorem test_assembly :
    wordText defaultConfig 0x021001 = some "LDI R16, 0x01" ∧ wordText defaultConfig 0x050010 = some "OUT DDRB, R16" ∧
    wordText defaultConfig 0x0105FF = some "JMP 0x05" ∧ wordText defaultConfig 0x000000 = some "NOP" ∧ wordText defaultConfig 0xAABBCC = some ".word 0xAABBCC" := by
  decide

/-- R26 with the positions of R25: SEI's bit is bit 4. -/
theorem test_set_interrupt_bit : (srSet (statusPosition .interrupt) State.reset).sr = 0b10000 := by decide
theorem test_clear_zero_bit : (srClear (statusPosition .zero) { State.reset with sr := 0b10101 }).sr = 0b10001 := by decide

/-- R200, R210: the outputs of a register index violation. -/
theorem test_event_ports :
    eventCode (Event.regIndex .second 0x20).kind = 4 ∧ (Event.regIndex .second 0x20).info = 0x20 ∧
    (Event.regIndex .second 0x20).operandNumber = 2 ∧ (Event.dataAddr 2000).info = 2000 := by decide

/-! ## Witnesses: a concrete state and operands that meet the hypotheses of each statement that has any -/

/-- A populated program to fetch from, the counter at its last word. -/
def fetching : State := at_ [0x021001, 0x050010] 1
/-- The counter just past the program. -/
def beyond : State := at_ [0x021001, 0x050010] 2

/-- A mnemonic the table does not have. -/
def rol : FurtherMnemonic := { name := "ROL", value := 0x80 }

/-- The default map with the values counted down from 0xFF, and one declared mnemonic fewer and one beyond the table: another
configuration the spec allows. -/
def otherConfig : Config :=
  { defaultConfig with
    opc := fun m => ~~~(opc m)
    declared := fun m => m != .SEI
    further := [rol]
    ddrb := 0x10
    portb := 0x11
    pinb := 0x12 }

/-- An implemented opcode, an opcode that is none, one that only the default configuration declares, one declared without an
implementation and one beyond the table, run by the machine under the other configuration. -/
theorem test_other_config :
    nextIs (stepInstruction otherConfig (at_ [0xFD1001] 0)) (fun t => reg t 16 == some 1 && t.event == .none) ∧
    nextIs (stepInstruction otherConfig (at_ [0x021001] 0)) (fun t => t.event == .unknownOpcode 0x02) ∧
    nextIs (stepInstruction otherConfig (at_ [0xDE0000] 0)) (fun t => t.event == .unknownOpcode 0xDE) ∧
    nextIs (stepInstruction otherConfig (at_ [0xDD0000] 0)) (fun t => t.event == .unimplemented 0xDD) ∧
    nextIs (stepInstruction otherConfig (at_ [0x80FFFF] 0))
      (fun t => t.event == .unimplemented 0x80 && t.pc == 1 && t.cs == .fetch && t.operand1 == 0xFF) ∧
    opcodeName otherConfig 0x80 = "ROL" ∧ wordText otherConfig 0x80FF01 = some "ROL 0xFF, 0x01" ∧
    opcodeName otherConfig 0xFD = "LDI" ∧ wordText otherConfig 0xFA1010 = some "OUT DDRB, R16" := by decide

theorem opc_injective : Function.Injective opc := by
  intro a b h
  cases a <;> cases b <;> first | rfl | exact absurd h (by decide)
theorem statusPosition_injective : Function.Injective statusPosition := by
  intro a b h
  cases a <;> cases b <;> first | rfl | exact absurd h (by decide)
theorem cycleCode_injective : Function.Injective cycleCode := by
  intro a b h
  cases a <;> cases b <;> first | rfl | exact absurd h (by decide)
theorem eventCode_injective : Function.Injective eventCode := by
  intro a b h
  cases a <;> cases b <;> first | rfl | exact absurd h (by decide)
theorem witness_DecodeEncode :
    Config.Ok otherConfig ∧ otherConfig.declared (Instr.out 0xFF 0xFF).mnemonic = true := by
  refine ⟨⟨fun m h => ?_, fun m n _ _ h => opc_injective (BitVec.not_inj.mp h), fun m f h => ?_, fun m f _ h => ?_,
    fun f g hf hg _ => ?_, by decide, by decide, by decide,
    statusPosition_injective, cycleCode_injective, eventCode_injective⟩, by decide⟩
  · cases m <;> first | rfl | cases h
  · cases List.mem_singleton.mp h
    cases m <;> decide
  · cases List.mem_singleton.mp h
    cases m <;> decide
  · exact (List.mem_singleton.mp hf).trans (List.mem_singleton.mp hg).symm
theorem witness_DecodeEncode_default : Config.Ok defaultConfig :=
  ⟨fun _ _ => rfl, fun _ _ _ _ h => opc_injective h, (fun _ _ h => by cases h), (fun _ _ _ h => by cases h),
    (fun _ _ h => by cases h), by decide, by decide, by decide,
    statusPosition_injective, cycleCode_injective, eventCode_injective⟩
theorem witness_EncodeDecode : decodeWith otherConfig 0xFD1001 = .ok (.ldi 16 1) := by decide
/-- 0x23 is declared by no mnemonic of the default map. -/
theorem undeclared_35 : Undeclared defaultConfig 0x23 := by
  refine ⟨fun m _ => ?_, (fun _ h => by cases h)⟩
  cases m <;> decide
theorem witness_UndeclaredWords :
    Undeclared defaultConfig (opcodeField 0x230000) ∧ 0x23 ≤ (opcodeField 0x230000).toNat ∧
    decode 0x230000 = .error (.unknownOpcode 0x23) := ⟨undeclared_35, by decide, by decide⟩
theorem witness_UndeclaredWords_further :
    Config.Ok otherConfig ∧ rol ∈ otherConfig.further ∧ rol.value = opcodeField 0x800000 ∧
    otherConfig.opc .OUT = opcodeField 0xFA0000 :=
  ⟨witness_DecodeEncode.1, List.mem_singleton.mpr rfl, by decide, by decide⟩
theorem witness_FetchTransition :
    (fetching.cs = .fetch ∧ fetching.pm[fetching.pc.toNat]? = some 0x050010) ∧
    (beyond.cs = .fetch ∧ beyond.pm.length ≤ beyond.pc.toNat) := by decide
theorem witness_DecodeTransition : ({ State.reset with ir := 0xAABBCC, cs := .decode } : State).cs = .decode := by decide
theorem witness_UnknownOpcodeResets :
    ((executing 0x23 0xFF 0xFF).cs = .execute ∧ Undeclared defaultConfig (executing 0x23 0xFF 0xFF).opcode) ∧
    ({ State.reset with ir := 0x230000, cs := .decode } : State).cs = .decode := ⟨⟨rfl, undeclared_35⟩, rfl⟩
theorem witness_CycleClosure :
    nextIs (stepState defaultConfig fetching) (fun t => !t.event.isBounds) ∧ nextIs (stepState defaultConfig beyond) (fun t => t.event.isBounds) := by
  decide
theorem witness_TransitionFrames :
    nextIs (stepState defaultConfig fetching) (fun _ => true) ∧ nextIs (stepState defaultConfig (executing 0x01 5 0)) (fun t => t.pc == 5) ∧
    nextIs (stepState defaultConfig { State.reset with cs := .decode }) (fun _ => true) ∧
    nextIs (stepState defaultConfig (executing 0x23 0 0)) (fun t => t.event == .unknownOpcode 0x23) := by decide
theorem witness_StepRunsDecoded :
    fetching.cs = .fetch ∧ fetching.pm[fetching.pc.toNat]? = some 0x050010 ∧ decode 0x050010 = .ok (.out 0 16) := by decide
theorem witness_InstructionRunsUnderAnyConfig :
    (at_ [0xFA0010] 0).cs = .fetch ∧ (at_ [0xFA0010] 0).pm[(at_ [0xFA0010] 0).pc.toNat]? = some 0xFA0010 ∧
    decodeWith otherConfig 0xFA0010 = .ok (.out 0 16) := by decide
/-- The same OUT, its word under each of the two configurations. -/
theorem witness_OpcodeMapIsTransparent :
    Config.Ok defaultConfig ∧ Config.Ok otherConfig ∧ SameToProgram (at_ [0x050010] 0) (at_ [0xFA0010] 0) ∧
    (at_ [0x050010] 0).pm[(0 : Byte).toNat]? = some (encodeWith defaultConfig (.out 0 16)) ∧
    (at_ [0xFA0010] 0).pm[(0 : Byte).toNat]? = some (encodeWith otherConfig (.out 0 16)) :=
  ⟨witness_DecodeEncode_default, witness_DecodeEncode.1, ⟨rfl, rfl, rfl, rfl, rfl, rfl, rfl, rfl⟩, by decide, by decide⟩
/-- The same run, in Execute of the same OUT, whose source is no register: both machines hold. -/
theorem witness_OpcodeMapIsTransparent_run :
    SameRun defaultConfig otherConfig
      { executing 0x05 0 32 with pm := [0x050020], ir := 0x050020 }
      { executing 0xFA 0 32 with pm := [0xFA0020], ir := 0xFA0020 } ∧
    nextIs (stepInstruction otherConfig { executing 0xFA 0 32 with pm := [0xFA0020], ir := 0xFA0020 })
      (fun t => t.event == .regIndex .second 32) := by
  have hw : SameWord defaultConfig otherConfig 0x050020 0xFA0020 := ⟨by unfold SameOpcode; decide, by decide, by decide⟩
  exact ⟨⟨⟨rfl, rfl, rfl, rfl, rfl, rfl, rfl, rfl⟩, .cons hw .nil, fun _ => hw, fun _ => hw.1⟩, by decide⟩
theorem witness_OpcodeMapIsTransparent_launch :
    ∀ i ∈ [Instr.out 0 16, .jmp 0 0], defaultConfig.declared i.mnemonic = true ∧ otherConfig.declared i.mnemonic = true := by
  decide
theorem witness_StepFinishesInstruction :
    decode ({ State.reset with ir := 0x021001, cs := .decode } : State).ir = .ok (.ldi 16 1) ∧
    decodeFields defaultConfig (executing 0x02 16 1).opcode (executing 0x02 16 1).operand1 (executing 0x02 16 1).operand2 =
      .ok (.ldi 16 1) := by decide
theorem witness_ThreeTransitions : fetching.cs = .fetch ∧ fetching.pm[fetching.pc.toNat]? = some 0x050010 := by decide
theorem witness_UndeclaredInstructionCycle :
    (at_ [0x230000] 0).cs = .fetch ∧ (at_ [0x230000] 0).pm[(at_ [0x230000] 0).pc.toNat]? = some 0x230000 ∧
    Undeclared defaultConfig (opcodeField 0x230000) := ⟨rfl, rfl, undeclared_35⟩
theorem witness_StepBeyondProgram : beyond.cs = .fetch ∧ beyond.pm.length ≤ beyond.pc.toNat := by decide
theorem witness_HoldUntilReset :
    nextIs (stepState defaultConfig beyond) (fun t => t.event.isBounds && t.pm[0]? == some 0x021001) ∧
    nextIs (stepState defaultConfig (executing 0x02 32 0)) (fun t => t.event.isBounds) := by decide
theorem witness_NopEffect :
    (at_ [0x00BEEF] 0).cs = .fetch ∧ (at_ [0x00BEEF] 0).pm[(at_ [0x00BEEF] 0).pc.toNat]? = some (packWord 0 0xBE 0xEF) := by
  decide
/-- The word jumps to itself (a populated target) and, in the other state, one past the program. -/
theorem witness_JmpEffect :
    ((at_ [0x010000] 0).cs = .fetch ∧ (at_ [0x010000] 0).pm[(0 : Byte).toNat]? = some (packWord 1 0 0)) ∧
    ((at_ [0x010100] 0).cs = .fetch ∧ (at_ [0x010100] 0).pm[(0 : Byte).toNat]? = some (packWord 1 1 0) ∧
      (at_ [0x010100] 0).pm.length ≤ (1 : Byte).toNat) := by decide
theorem witness_LdiEffect : (31 : Byte).toNat < 32 ∧ 31 < (32 : Byte).toNat := by decide
theorem witness_MovEffect :
    ((31 : Byte).toNat < 32 ∧ (31 : Byte).toNat < 32) ∧ 31 < (32 : Byte).toNat ∧
    ((31 : Byte).toNat < 32 ∧ 31 < (32 : Byte).toNat) := by decide
theorem witness_InEffect : (31 : Byte).toNat < 32 ∧ 31 < (32 : Byte).toNat := by decide
theorem witness_OutEffect :
    Memory.wf ({ State.reset with dm := [(0, 1), (255, 2)] } : State).dm = true ∧ (31 : Byte).toNat < 32 ∧
    31 < (32 : Byte).toNat := by decide
theorem witness_OutThenIn :
    Memory.wf State.reset.dm = true ∧ (31 : Byte).toNat < 32 ∧
    nextIs (exec (.out 2 31) State.reset) (fun t => nextIs (exec (.in_ 31 2) t) (fun _ => true)) := by decide
/-- Each form at the lowest value that names no register; with both operands of MOV out of range the first; an
address above 31 is no register operand. -/
theorem witness_RegisterIndexViolation :
    FailingOperand (.ldi 32 0x50) .first 32 ∧ FailingOperand (.mov 32 32) .first 32 ∧
    FailingOperand (.mov 31 32) .second 32 ∧ FailingOperand (.in_ 32 0x50) .first 32 ∧
    FailingOperand (.out 0x40 32) .second 32 ∧
    nextIs (stepState defaultConfig (executing 0x05 0x40 0x50)) (fun t => t.event == .regIndex .second 0x50) := by
  simp only [FailingOperand]
  decide
theorem witness_CheckOrder :
    (Config.Ok defaultConfig ∧ (executing 0x23 0xFF 0xFF).cs = .execute ∧
      Undeclared defaultConfig (executing 0x23 0xFF 0xFF).opcode) ∧
    ((executing 0x22 0xFF 0xFF).cs = .execute ∧ Mnemonic.CLI.implemented = false ∧
      (executing 0x22 0xFF 0xFF).opcode = defaultConfig.opc .CLI) ∧
    (Config.Ok otherConfig ∧ rol ∈ otherConfig.further ∧ (executing 0x80 32 32).opcode = rol.value) ∧
    ((executing 0x03 32 32).opcode = defaultConfig.opc .MOV ∧ 31 < (executing 0x03 32 32).operand1.toNat) ∧
    ((executing 0x03 31 32).operand1.toNat < 32 ∧ 31 < (executing 0x03 31 32).operand2.toNat) :=
  ⟨⟨witness_DecodeEncode_default, rfl, undeclared_35⟩, by decide,
    ⟨witness_DecodeEncode.1, List.mem_singleton.mpr rfl, rfl⟩, by decide, by decide⟩
theorem witness_UnimplementedInstructionCycle_further :
    Config.Ok otherConfig ∧ rol ∈ otherConfig.further ∧ (at_ [0x80FFFF] 0).cs = .fetch ∧
    (at_ [0x80FFFF] 0).pm[(at_ [0x80FFFF] 0).pc.toNat]? = some (rol.encode 0xFF 0xFF) :=
  ⟨witness_DecodeEncode.1, List.mem_singleton.mpr rfl, by decide, by decide⟩
theorem witness_UnimplementedInstructionCycle :
    (Instr.cli 0xFF 0xFF).mnemonic.implemented = false ∧ (at_ [0x22FFFF] 0).cs = .fetch ∧
    (at_ [0x22FFFF] 0).pm[(at_ [0x22FFFF] 0).pc.toNat]? = some (encode (.cli 0xFF 0xFF)) := by decide
theorem witness_FrameOfRegisterWriters :
    nextIs (exec (.ldi 31 1) State.reset) (fun _ => true) ∧ nextIs (exec (.mov 31 0) State.reset) (fun _ => true) ∧
    nextIs (exec (.in_ 31 0) State.reset) (fun _ => true) := by decide
theorem witness_FrameOfOut :
    Memory.wf State.reset.dm = true ∧ nextIs (exec (.out 255 31) State.reset) (fun _ => true) := by decide
theorem witness_FrameOfTheOthers :
    (Instr.nop 0 0).mnemonic = .NOP ∧ (Instr.jmp 0 0).mnemonic = .JMP ∧ (Instr.push 0 0).mnemonic.implemented = false ∧
    nextIs (exec (.push 0 0) State.reset) (fun _ => true) ∧ nextIs (exec (.jmp 9 0) State.reset) (fun _ => true) := by decide
theorem witness_StatusRegisterUnused :
    nextIs (exec (.ldi 0 0) { State.reset with sr := 0b11111 }) (fun t => t.sr == 0b11111) ∧
    nextIs (performAll defaultConfig [.writeDataMemory 2 1, .stepInstruction] (State.launch [0x040102]))
      (fun t => t.sr == 0 && reg t 1 == some 1) := by decide
theorem witness_ProgramMemoryImmutable :
    nextIs (perform defaultConfig .stepInstruction fetching) (fun t => t.pm == fetching.pm) := by decide
theorem witness_HighDataUnreached :
    Memory.wf ({ fetching with dm := [(256, 7)] } : State).dm = true ∧
    nextIs (step { fetching with dm := [(256, 7)] }) (fun t => t.event == .none && Memory.read t.dm 256 == 7) := by decide
theorem witness_StepKeepsInv : Inv (State.launch [0x022001]) ∧
    nextIs (step (State.launch [0x022001])) (fun t => t.cs == .execute && t.event == .regIndex .first 32) := by
  refine ⟨⟨rfl, fun h => absurd rfl h, (fun h => by cases h), List.nodup_nil, List.not_mem_nil, .inl rfl⟩, by decide⟩
theorem witness_HostOperationsKeepInv : Inv (State.launch []) ∧
    nextIs (perform defaultConfig (.writeDataMemory 1999 1) (State.launch [])) (fun t => t.dm == [(1999, 1)]) := by
  refine ⟨⟨rfl, fun h => absurd rfl h, (fun h => by cases h), List.nodup_nil, List.not_mem_nil, .inl rfl⟩, by decide⟩
/-- Two states that differ in the status register, in `mar` and in the byte at 256. -/
theorem witness_UnreadStateIsInert :
    Memory.wf fetching.dm = true ∧ Memory.wf ({ fetching with sr := 5, mar := 9, dm := [(256, 1)] } : State).dm = true ∧
    SameActive fetching { fetching with sr := 5, mar := 9, dm := [(256, 1)] } := by
  refine ⟨rfl, by decide, rfl, rfl, rfl, rfl, rfl, rfl, rfl, rfl, fun a ha => ?_⟩
  have : 256 ≠ a := by omega
  simp [Memory.read, this, fetching, at_, State.reset]

/-- Load, store, and a jump to itself in the last word. -/
def dutifulProgram : List Word := [0x021001, 0x050010, 0x010200]
theorem witness_DutifulLaunch : Dutiful defaultConfig dutifulProgram := by
  refine ⟨by decide, fun index w h => ?_⟩
  match index, h with
  | 0, h => cases h; decide
  | 1, h => cases h; decide
  | 2, h => cases h; decide
theorem witness_DutifulSoftwareRunsEventFree : Guarded defaultConfig (State.launch dutifulProgram) :=
  ⟨witness_DutifulLaunch, ⟨rfl, rfl⟩, fun h => absurd rfl h, (fun h => by cases h), fun _ => by decide⟩
theorem witness_EventRecordIsSticky :
    nextIs (perform defaultConfig .stepState { beyond with raised := [.unknownOpcode 0xFF] })
      (fun t => t.raised == [.progFetch 2, .unknownOpcode 0xFF]) ∧
    nextIs (perform defaultConfig .reset { beyond with raised := [.unknownOpcode 0xFF] })
      (fun t => t.raised == [.unknownOpcode 0xFF]) := by decide
theorem witness_ResetValues : fetching.pm[0]? = some 0x021001 ∧ beyond.pm = fetching.pm := by decide
theorem witness_HostWrite : Memory.wf State.reset.dm = true ∧ 1999 ≤ 1999 ∧ 1999 < 2000 := by decide
/-- The inputs of an edge by the three controls. -/
def ports (rst step extWe : Bool) : PortsIn :=
  { rst := rst, step := step, extWe := extWe, extAddr := 0, extData := 0, dbgRaddr := 0, dbgMaddr := 0 }
theorem witness_ClockEdge :
    (ports true true true).rst = true ∧
    ((ports false true false).rst = false ∧ (ports false true false).step = true ∧ (ports false true false).extWe = false) ∧
    ((ports false false true).rst = false ∧ (ports false false true).step = false ∧ (ports false false true).extWe = true) ∧
    ((ports false false false).rst = false ∧ (ports false false false).step = false) ∧
    ((ports false true true).step = true ∧ (ports false true true).extWe = true) := by decide
theorem witness_SnapshotShows : 0 < 2000 ∧ 1999 < 2000 := by decide
theorem witness_OpcodeNames :
    Config.Ok defaultConfig ∧ Undeclared defaultConfig 0x23 ∧ 0x23 ≤ (0x23 : Byte).toNat :=
  ⟨witness_DecodeEncode_default, undeclared_35, by decide⟩

end Sys2Proof.Tests
end

section
/-! PROOF. The default configuration (R6, R25, R31, R86, R87, R210). Each of its codes is a position in a table of what it
numbers, so that the table reads a code back; the opcode map numbers `Mnemonic.all`, and numbers all of it. -/

namespace Sys2Proof

/-- A numbering that a table reads back is injective. -/
theorem injective_of_getElem?_eq_some {α β : Type} {f : α → β} {position : β → Nat} (table : List α)
    (h : ∀ a, table[position (f a)]? = some a) : Function.Injective f := fun a b hab =>
  Option.some.inj ((h a).symm.trans (hab ▸ h b))

/-! ## The default opcode map -/

/-- The value of a mnemonic is its position in R86's table. -/
theorem Mnemonic.all_getElem?_opc (m : Mnemonic) : Mnemonic.all[(opc m).toNat]? = some m := by
  cases m <;> rfl

theorem defaultConfig_opc_injective : Function.Injective defaultConfig.opc :=
  injective_of_getElem?_eq_some Mnemonic.all Mnemonic.all_getElem?_opc

theorem opc_toNat_le (m : Mnemonic) : (opc m).toNat ≤ 0x22 := by
  obtain ⟨hlt, -⟩ := List.getElem?_eq_some_iff.mp (Mnemonic.all_getElem?_opc m)
  exact Nat.le_of_lt_succ hlt

/-- The mnemonic at each position of R86's table has that position as its value. -/
theorem opc_getElem_all : ∀ k : Fin Mnemonic.all.length, (opc (Mnemonic.all.get k)).toNat = k := by
  decide

/-- R86: the values of the default map are an interval without gaps. -/
theorem opc_eq_iff_toNat_le (v : Byte) : v.toNat ≤ 0x22 ↔ ∃ m, defaultConfig.opc m = v := by
  constructor
  · intro hv
    have hlt : v.toNat < Mnemonic.all.length := Nat.lt_succ_of_le hv
    exact ⟨Mnemonic.all.get ⟨v.toNat, hlt⟩, BitVec.eq_of_toNat_eq (opc_getElem_all ⟨v.toNat, hlt⟩)⟩
  · rintro ⟨m, rfl⟩
    exact opc_toNat_le m

/-- As every mnemonic of the table is declared and no other, undeclared means outside the map's range. -/
theorem undeclared_defaultConfig_iff (v : Byte) :
    Undeclared defaultConfig v ↔ ¬ ∃ m, defaultConfig.opc m = v := by
  simp [Undeclared, defaultConfig]

/-- R87. -/
theorem undeclared_defaultConfig_iff_le_toNat (v : Byte) : 0x23 ≤ v.toNat ↔ Undeclared defaultConfig v := by
  rw [undeclared_defaultConfig_iff, ← opc_eq_iff_toNat_le]
  omega

/-! ## The default configuration is allowed -/

theorem defaultConfig_statusPosition_injective : Function.Injective defaultConfig.statusPosition :=
  injective_of_getElem?_eq_some (position := Fin.val) [.carry, .overflow, .zero, .negative, .interrupt]
    fun b => by cases b <;> rfl

theorem defaultConfig_cycleCode_injective : Function.Injective defaultConfig.cycleCode :=
  injective_of_getElem?_eq_some (position := BitVec.toNat) [.fetch, .decode, .execute] fun s => by cases s <;> rfl

theorem defaultConfig_eventCode_injective : Function.Injective defaultConfig.eventCode :=
  injective_of_getElem?_eq_some (position := BitVec.toNat)
    [.none, .unknownOpcode, .unimplemented, .progFetch, .regIndex, .dataAddr] fun k => by cases k <;> rfl

theorem not_mem_defaultConfig_further (f : FurtherMnemonic) : f ∉ defaultConfig.further := List.not_mem_nil

theorem defaultConfig_ok : Config.Ok defaultConfig := by
  refine ⟨fun _ _ => rfl, fun _ _ _ _ h => defaultConfig_opc_injective h, ?name, ?value, ?further,
    by decide, by decide, by decide, defaultConfig_statusPosition_injective,
    defaultConfig_cycleCode_injective, defaultConfig_eventCode_injective⟩
  case name => exact fun _ f hf => absurd hf (not_mem_defaultConfig_further f)
  case value => exact fun _ f _ hf => absurd hf (not_mem_defaultConfig_further f)
  case further => exact fun f _ hf => absurd hf (not_mem_defaultConfig_further f)

/-- Settles O2: the opcode map numbers the table of R86, so its values are the positions 0x00 to 0x22. -/
theorem defaultMapInjective : Obligations.DefaultMapInjective :=
  ⟨defaultConfig_ok, defaultConfig_opc_injective, fun _ => rfl, rfl, opc_eq_iff_toNat_le,
    undeclared_defaultConfig_iff_le_toNat⟩

end Sys2Proof
end

section
/-! PROOF. The effects of Execute (R113). Beside the opcode and the two operands an Execute transition reads registers and
data bytes below 256 only, so two states that agree on these undergo one and the same `Effect`. Claims that compare two
runs (O15, O43, O49) ask what an `Effect` does to a pair of states, and do not go through the instructions again. -/

namespace Sys2Proof.Machine

/-! ## Effects -/

/-- What the Execute of an instruction does to a state, apart from how it came to do it. The reset of an undeclared opcode
is no instruction's and stands beside it. -/
inductive Effect where
  /-- NOP: the normal end and nothing more (R140). -/
  | completed
  /-- JMP (R141). -/
  | jumped (target : Byte)
  /-- LDI, MOV and IN: a register takes a value (R130 to R132). -/
  | loaded (i : Fin Config.nreg) (v : Byte)
  /-- OUT: the data byte at an address field takes a value (R133). -/
  | stored (a v : Byte)
  /-- An operand names no register: the core holds (R214). -/
  | violated (n : OperandNo) (v : Byte)
  /-- Every declared-but-unimplemented instruction (R150). -/
  | unimplemented

/-- The state an effect leaves; `exec_effect` ties it to the instructions. -/
def Effect.apply : Effect → State → State
  | .completed, s => s.endExecute
  | .jumped target, s => (s.setPc target).endExecute
  | .loaded i v, s => (s.writeReg i v).endExecute
  | .stored a v, s => { s with dm := Memory.write s.dm (dataAddress a) v }.endExecute
  | .violated n v, s => s.raise (.regIndex n v)
  | .unimplemented, s => { s with cs := .fetch }.raise (.unimplemented s.opcode)

section
variable (e : Effect) (s : State)

@[simp] theorem Effect.apply_sr : (e.apply s).sr = s.sr := by cases e <;> rfl
@[simp] theorem Effect.apply_ir : (e.apply s).ir = s.ir := by cases e <;> rfl
@[simp] theorem Effect.apply_mar : (e.apply s).mar = s.mar := by cases e <;> rfl
@[simp] theorem Effect.apply_opcode : (e.apply s).opcode = s.opcode := by cases e <;> rfl
@[simp] theorem Effect.apply_operand1 : (e.apply s).operand1 = s.operand1 := by cases e <;> rfl
@[simp] theorem Effect.apply_operand2 : (e.apply s).operand2 = s.operand2 := by cases e <;> rfl
@[simp] theorem Effect.apply_pm : (e.apply s).pm = s.pm := by cases e <;> rfl

/-- No effect reads the status register. -/
theorem Effect.apply_with_sr (v : BitVec 5) : e.apply { s with sr := v } = { e.apply s with sr := v } := by
  cases e <;> rfl

theorem Effect.apply_wf (h : Memory.wf s.dm = true) : Memory.wf (e.apply s).dm = true := by
  cases e with
  | stored a v => exact Memory.write_wf h (of_decide_eq_true (isDataAddress_field a))
  | _ => exact h

end

theorem Effect.apply_event_kind (e : Effect) (s t : State) : (e.apply t).event.kind = (e.apply s).event.kind := by
  cases e <;> rfl

/-- The event of an effect depends on the decoded opcode alone. -/
theorem Effect.apply_event (e : Effect) {s t : State} (h : t.opcode = s.opcode) :
    (e.apply t).event = (e.apply s).event := by
  cases e with
  | unimplemented => exact congrArg Event.unimplemented h
  | _ => rfl

/-! ## Which effect: what Execute reads -/

/-- The states agree on the registers and on the data bytes an 8-bit address reaches (R52). -/
structure SameReads (s t : State) : Prop where
  regs : t.regs = s.regs
  bytes : ∀ a : Nat, a < 256 → Memory.read t.dm a = Memory.read s.dm a

theorem SameReads.refl (s : State) : SameReads s s := ⟨rfl, fun _ _ => rfl⟩

theorem SameReads.readReg {s t : State} (h : SameReads s t) (i : Fin Config.nreg) : t.readReg i = s.readReg i := by
  simp [State.readReg, h.regs]

theorem SameReads.byte {s t : State} (h : SameReads s t) (field : Byte) :
    Memory.read t.dm (dataAddress field) = Memory.read s.dm (dataAddress field) :=
  h.bytes _ (dataAddress_lt field)

/-- An instruction has one effect on all states that agree on what it reads. -/
theorem exec_effect (i : Instr) (s : State) : ∃ e : Effect, ∀ t, SameReads s t → exec i t = .next (e.apply t) := by
  cases hi : i.mnemonic.implemented with
  | false => exact ⟨.unimplemented, fun t _ => exec_of_not_implemented hi t⟩
  | true =>
    cases hwf : WellFormed i with
    | false =>
      obtain ⟨n, v, -, -, h⟩ := exec_of_not_wellFormed hwf
      exact ⟨.violated n v, fun t _ => h t⟩
    | true =>
      cases i
      case nop => exact ⟨.completed, fun t _ => rfl⟩
      case jmp target x => exact ⟨.jumped target, fun t _ => rfl⟩
      case ldi d k =>
        have hd : d.toNat < Config.nreg := of_decide_eq_true hwf
        exact ⟨.loaded ⟨d.toNat, hd⟩ k, fun t _ => withReg_of_lt .first t _ hd⟩
      case mov d r =>
        obtain ⟨hd, hr⟩ : d.toNat < Config.nreg ∧ r.toNat < Config.nreg := by
          simpa [WellFormed, isRegIndex] using hwf
        refine ⟨.loaded ⟨d.toNat, hd⟩ (s.readReg ⟨r.toNat, hr⟩), fun t ht => ?_⟩
        rw [← ht.readReg]
        exact (withReg_of_lt .first t _ hd).trans (withReg_of_lt .second t _ hr)
      case in_ d a =>
        have hd : d.toNat < Config.nreg := of_decide_eq_true hwf
        refine ⟨.loaded ⟨d.toNat, hd⟩ (Memory.read s.dm (dataAddress a)), fun t ht => ?_⟩
        rw [← ht.byte]
        exact (withReg_of_lt .first t _ hd).trans (withLoaded_eq a t _)
      case out a r =>
        have hr : r.toNat < Config.nreg := of_decide_eq_true hwf
        refine ⟨.stored a (s.readReg ⟨r.toNat, hr⟩), fun t ht => ?_⟩
        rw [← ht.readReg]
        exact (withReg_of_lt .second t _ hr).trans (withStored_eq a _ t _)
      all_goals cases hi

/-- Two states whose opcodes mean the same, each under its configuration, and that agree on the operands and on what an
instruction reads: Execute has one effect on both, or resets both. -/
theorem executeTransition_agree {c c' : Config} {s t : State} {R : State → State → Prop}
    (hop : SameOpcode c c' s.opcode t.opcode) (h1 : t.operand1 = s.operand1) (h2 : t.operand2 = s.operand2)
    (hreads : SameReads s t) (heffect : ∀ e : Effect, R (e.apply s) (e.apply t))
    (hreset : R (s.resetAll.raise (.unknownOpcode s.opcode)) (t.resetAll.raise (.unknownOpcode t.opcode))) :
    ∃ s' t', executeTransition c s = .next s' ∧ executeTransition c' t = .next t' ∧ R s' t' := by
  unfold executeTransition
  rw [← show classOf c s.opcode = classOf c' t.opcode from hop, h1, h2]
  cases classOf c s.opcode with
  | instruction m =>
    obtain ⟨e, he⟩ := exec_effect (Instr.make m s.operand1 s.operand2) s
    exact ⟨_, _, he s (.refl s), he t hreads, heffect e⟩
  | further name => exact ⟨_, _, rfl, rfl, heffect .unimplemented⟩
  | undeclared => exact ⟨_, _, rfl, rfl, hreset⟩

/-! ## What one transition, and one operation of the host, can do -/

/-- The five things a transition can be (R111 to R113, R211, R213). -/
inductive Transition (s : State) : State → Prop where
  | fetched (w : Word) : s.cs = .fetch → s.progRead s.pc = some w → Transition s (s.fetched w)
  | beyond : s.cs = .fetch → s.progRead s.pc = none → Transition s (s.raise (.progFetch s.pc))
  | decoded : s.cs = .decode → Transition s s.decoded
  | executed (e : Effect) : s.cs = .execute → Transition s (e.apply s)
  | reset : s.cs = .execute → Transition s (s.resetAll.raise (.unknownOpcode s.opcode))

theorem transition_of_stepState {c : Config} {s t : State} (h : stepState c s = .next t) : Transition s t := by
  cases hcs : s.cs with
  | fetch =>
    rw [stepState_of_fetch hcs] at h
    obtain ⟨w, hw, h'⟩ | ⟨hw, h'⟩ := fetchTransition_cases s <;> cases h'.symm.trans h
    · exact .fetched w hcs hw
    · exact .beyond hcs hw
  | decode =>
    cases (stepState_of_decode hcs).symm.trans h
    exact .decoded hcs
  | execute =>
    rw [stepState_of_execute hcs] at h
    obtain ⟨i, -, h'⟩ | ⟨_, -, -, -, h'⟩ | ⟨-, h'⟩ := executeTransition_cases c s
    · obtain ⟨e, he⟩ := exec_effect i s
      cases (h'.trans (he s (.refl s))).symm.trans h
      exact .executed e hcs
    · cases h'.symm.trans h
      exact .executed .unimplemented hcs
    · cases h'.symm.trans h
      exact .reset hcs

/-- What every transition does holds of a step. -/
theorem stepInstruction_induction {c : Config} {R : State → State → Prop} (hrefl : ∀ s, R s s)
    (htrans : ∀ {s t u}, R s t → R t u → R s u) (hone : ∀ {s t}, Transition s t → R s t) {s t : State}
    (h : stepInstruction c s = .next t) : R s t :=
  stepUntilExecuted_induction hrefl htrans (fun h => hone (transition_of_stepState h)) 3 h

/-- What every transition, every reset and every host write does holds of every operation of the host (R190). -/
theorem perform_induction {c : Config} {R : State → State → Prop} (hrefl : ∀ s, R s s)
    (htrans : ∀ {s t u}, R s t → R t u → R s u) (hone : ∀ {s t}, Transition s t → R s t)
    (hreset : ∀ s, R s (hostReset s)) (hwrite : ∀ s a v, R s (writeDataMemory a v s)) {op : HostOp} {s t : State}
    (h : perform c op s = .next t) : R s t := by
  cases op with
  | stepState => exact hone (transition_of_stepState h)
  | stepInstruction => exact stepInstruction_induction hrefl htrans hone h
  | reset =>
    cases h
    exact hreset s
  | snapshot =>
    cases h
    exact hrefl s
  | writeDataMemory a v =>
    cases h
    exact hwrite s a v

/-- What holds at launch and is kept by every operation of the host holds of every reachable state. -/
theorem Reachable.induction {c : Config} {prog : List Word} {P : State → Prop} (hlaunch : P (State.launch prog))
    (hperform : ∀ {op s t}, perform c op s = .next t → P s → P t) {s : State} (h : Reachable c prog s) : P s := by
  obtain ⟨ops, hops⟩ := h
  generalize State.launch prog = s₀ at hlaunch hops
  induction ops generalizing s₀ with
  | nil =>
    cases hops
    exact hlaunch
  | cons op ops ih =>
    unfold performAll at hops
    split at hops
    · rename_i u hu
      exact ih u (hperform hu hlaunch) hops
    · cases hops
    · cases hops

end Sys2Proof.Machine
end

section
/-! PROOF. The opcode map is transparent (R34, R86): `SameRun` is a simulation between machines with different maps. -/

namespace Sys2Proof.Machine

theorem sameWord_encodeWith {c c' : Config} (hok : Config.Ok c) (hok' : Config.Ok c') {i : Instr}
    (hd : c.declared i.mnemonic = true) (hd' : c'.declared i.mnemonic = true) :
    SameWord c c' (encodeWith c i) (encodeWith c' i) := by
  obtain ⟨hop, h1, h2⟩ := fields_encodeWith c i
  obtain ⟨hop', h1', h2'⟩ := fields_encodeWith c' i
  refine ⟨?_, h1'.trans h1.symm, h2'.trans h2.symm⟩
  rw [hop, hop', SameOpcode, classOf_opc hok hd, classOf_opc hok' hd']

/-! ## States a program cannot tell apart -/

section
variable {s t : State}

theorem SameToProgram.sameReads (h : SameToProgram s t) : SameReads s t := by
  obtain ⟨hregs, -, -, -, -, -, -, hdm⟩ := h
  exact ⟨hregs, fun _ _ => by rw [hdm]⟩

theorem SameToProgram.fetched (h : SameToProgram s t) (w w' : Word) : SameToProgram (s.fetched w) (t.fetched w') := by
  obtain ⟨hregs, hpc, hsr, -, h1, h2, -, hdm⟩ := h
  exact ⟨hregs, congrArg (· + 1) hpc, hsr, hpc, h1, h2, rfl, hdm⟩

theorem SameToProgram.decoded (h : SameToProgram s t) {c c' : Config} (hw : SameWord c c' s.ir t.ir) :
    SameToProgram s.decoded t.decoded := by
  obtain ⟨hregs, hpc, hsr, hmar, -, -, -, hdm⟩ := h
  obtain ⟨-, h1, h2⟩ := hw
  exact ⟨hregs, hpc, hsr, hmar, h1, h2, rfl, hdm⟩

theorem SameToProgram.reset (e e' : Event) : SameToProgram (s.resetAll.raise e) (t.resetAll.raise e') :=
  ⟨rfl, rfl, rfl, rfl, rfl, rfl, rfl, rfl⟩

theorem SameToProgram.effect (h : SameToProgram s t) (e : Effect) : SameToProgram (e.apply s) (e.apply t) := by
  obtain ⟨hregs, hpc, hsr, hmar, h1, h2, hcs, hdm⟩ := h
  cases e with
  | completed => exact ⟨hregs, hpc, hsr, hmar, h1, h2, rfl, hdm⟩
  | jumped target => exact ⟨hregs, rfl, hsr, hmar, h1, h2, rfl, hdm⟩
  | loaded i v => exact ⟨congrArg (·.set i v) hregs, hpc, hsr, hmar, h1, h2, rfl, hdm⟩
  | stored a v => exact ⟨hregs, hpc, hsr, hmar, h1, h2, rfl, congrArg (Memory.write · _ v) hdm⟩
  | violated n v => exact ⟨hregs, hpc, hsr, hmar, h1, h2, hcs, hdm⟩
  | unimplemented => exact ⟨hregs, hpc, hsr, hmar, h1, h2, rfl, hdm⟩

/-- One instruction whose two words agree, whatever else the program memories hold. -/
theorem SameToProgram.stepInstruction_of_sameWord (h : SameToProgram s t) {c c' : Config} {w w' : Word}
    (hw : SameWord c c' w w') (hcs : s.cs = .fetch) (hs : s.progRead s.pc = some w) (ht : t.progRead t.pc = some w') :
    ∃ s' t', stepInstruction c s = .next s' ∧ stepInstruction c' t = .next t' ∧ SameToProgram s' t' ∧
      t'.event.kind = s'.event.kind := by
  have hcs' : t.cs = .fetch := by
    obtain ⟨-, -, -, -, -, -, hcs', -⟩ := h
    exact hcs'.trans hcs
  have hp : SameToProgram (s.fetched w).decoded (t.fetched w').decoded := (h.fetched w w').decoded hw
  obtain ⟨hop, h1, h2⟩ := hw
  rw [stepInstruction_of_fetch hcs hs, stepInstruction_of_fetch hcs' ht]
  exact executeTransition_agree (R := fun a b => SameToProgram a b ∧ b.event.kind = a.event.kind) hop h1 h2
    hp.sameReads (fun e => ⟨hp.effect e, e.apply_event_kind _ _⟩) ⟨.reset _ _, rfl⟩

end

/-! ## The same run -/

section
variable {c c' : Config} {s t : State}

theorem SameRun.of_fetch (h : SameToProgram s t) (hpm : List.Forall₂ (SameWord c c') s.pm t.pm)
    (hcs : s.cs = .fetch) : SameRun c c' s t :=
  ⟨h, hpm, fun hne => absurd hcs hne, fun hx => by rw [hcs] at hx; cases hx⟩

theorem SameRun.cs_eq (h : SameRun c c' s t) : t.cs = s.cs := by
  obtain ⟨⟨-, -, -, -, -, -, hcs, -⟩, -⟩ := h
  exact hcs

/-- Corresponding program memories end at the same index, and hold the same instruction before it. -/
theorem progRead_of_forall₂ (hpm : List.Forall₂ (SameWord c c') s.pm t.pm) (a : Byte) :
    (s.progRead a = none ∧ t.progRead a = none) ∨
    ∃ w w', s.progRead a = some w ∧ t.progRead a = some w' ∧ SameWord c c' w w' := by
  have hlen := hpm.length_eq
  by_cases ha : a.toNat < s.pm.length
  · exact .inr ⟨_, _, List.getElem?_eq_getElem ha, List.getElem?_eq_getElem (hlen ▸ ha), hpm.get ha (hlen ▸ ha)⟩
  · exact .inl ⟨List.getElem?_eq_none (by omega), List.getElem?_eq_none (by omega)⟩

theorem SameRun.progRead_pc (h : SameRun c c' s t) :
    (s.progRead s.pc = none ∧ t.progRead t.pc = none) ∨
    ∃ w w', s.progRead s.pc = some w ∧ t.progRead t.pc = some w' ∧ SameWord c c' w w' := by
  obtain ⟨⟨-, hpc, -⟩, hpm, -⟩ := h
  rw [hpc]
  exact progRead_of_forall₂ hpm s.pc

theorem SameRun.raise (h : SameRun c c' s t) (e e' : Event) : SameRun c c' (s.raise e) (t.raise e') := h

theorem SameRun.fetched (h : SameRun c c' s t) {w w' : Word} (hw : SameWord c c' w w') :
    SameRun c c' (s.fetched w) (t.fetched w') := by
  obtain ⟨hprog, hpm, -, -⟩ := h
  exact ⟨hprog.fetched w w', hpm, fun _ => hw, fun hx => by cases hx⟩

theorem SameRun.decoded (h : SameRun c c' s t) (hcs : s.cs ≠ .fetch) : SameRun c c' s.decoded t.decoded := by
  obtain ⟨hprog, hpm, hir, -⟩ := h
  exact ⟨hprog.decoded (hir hcs), hpm, fun _ => hir hcs, fun _ => (hir hcs).1⟩

theorem SameRun.effect (h : SameRun c c' s t) (hcs : s.cs = .execute) (e : Effect) :
    SameRun c c' (e.apply s) (e.apply t) := by
  obtain ⟨hprog, hpm, hir, hop⟩ := h
  have hne : s.cs ≠ .fetch := by simp [hcs]
  exact ⟨hprog.effect e, by simpa using hpm, fun _ => by simpa using hir hne, fun _ => by simpa using hop hcs⟩

theorem SameRun.executeTransition (h : SameRun c c' s t) (hcs : s.cs = .execute) :
    ∃ s' t', executeTransition c s = .next s' ∧ executeTransition c' t = .next t' ∧ SameRun c c' s' t' ∧
      t'.event.kind = s'.event.kind := by
  have ⟨hprog, hpm, _, hop⟩ := h
  have ⟨_, _, _, _, h1, h2, _, _⟩ := hprog
  exact executeTransition_agree (R := fun a b => SameRun c c' a b ∧ b.event.kind = a.event.kind) (hop hcs) h1 h2
    hprog.sameReads (fun e => ⟨h.effect hcs e, e.apply_event_kind _ _⟩) ⟨.of_fetch (.reset _ _) hpm rfl, rfl⟩

/-- Lock step: from the same run, whole instructions lead to the same run. -/
theorem SameRun.stepInstruction (h : SameRun c c' s t) :
    ∃ s' t', stepInstruction c s = .next s' ∧ stepInstruction c' t = .next t' ∧ SameRun c c' s' t' ∧
      t'.event.kind = s'.event.kind := by
  cases hcs : s.cs with
  | fetch =>
    have hcs' := h.cs_eq.trans hcs
    obtain ⟨hs, ht⟩ | ⟨w, w', hs, ht, hw⟩ := h.progRead_pc
    · exact ⟨_, _, stepInstruction_of_fetch_none hcs hs, stepInstruction_of_fetch_none hcs' ht, h.raise _ _, rfl⟩
    · rw [stepInstruction_of_fetch hcs hs, stepInstruction_of_fetch hcs' ht]
      exact ((h.fetched hw).decoded (by simp)).executeTransition rfl
  | decode =>
    rw [stepInstruction_of_decode hcs, stepInstruction_of_decode (h.cs_eq.trans hcs)]
    exact (h.decoded (by simp [hcs])).executeTransition rfl
  | execute =>
    rw [stepInstruction_of_execute hcs, stepInstruction_of_execute (h.cs_eq.trans hcs)]
    exact h.executeTransition hcs

end

theorem SameRun.launch {c c' : Config} {p p' : List Word} (h : List.Forall₂ (SameWord c c') p p') :
    SameRun c c' (State.launch p) (State.launch p') :=
  .of_fetch ⟨rfl, rfl, rfl, rfl, rfl, rfl, rfl, rfl⟩ h rfl

/-- Settles O15: `SameRun` is a simulation that holds at launch; one instruction needs its own two words only. -/
theorem opcodeMapIsTransparent : Obligations.OpcodeMapIsTransparent := by
  refine ⟨fun _ _ _ _ h => h.stepInstruction, fun c c' prog hok hok' hd => .launch ?words,
    fun _ _ _ _ _ hok hok' hd hd' h => h.stepInstruction_of_sameWord (sameWord_encodeWith hok hok' hd hd')⟩
  case words =>
    rw [List.forall₂_map_left_iff, List.forall₂_map_right_iff, List.forall₂_same]
    intro i hi
    obtain ⟨hdi, hdi'⟩ := hd i hi
    exact sameWord_encodeWith hok hok' hdi hdi'

end Sys2Proof.Machine
end

section
/-! PROOF. The engine's invariant (R24, R28 to R30, R112, R217): it holds at launch and every transition keeps it. -/

namespace Sys2Proof.Machine

theorem RecordOk.quiet {s : State} (h : RecordOk s) {t : State} (hraised : t.raised = s.raised)
    (hevent : t.event = .none) : RecordOk t := by
  obtain ⟨hnodup, hnone, -⟩ := h
  exact ⟨hraised ▸ hnodup, hraised ▸ hnone, .inl hevent⟩

theorem RecordOk.raise {s : State} (h : RecordOk s) {e : Event} (he : e ≠ .none) : RecordOk (s.raise e) := by
  obtain ⟨hnodup, hnone, -⟩ := h
  refine ⟨recordEvent_nodup hnodup, fun hmem => ?_, .inr (mem_recordEvent.mpr (.inl rfl))⟩
  exact (mem_recordEvent.mp hmem).elim (fun heq => he heq.symm) hnone

theorem RecordOk.effect {s : State} (h : RecordOk s) (e : Effect) : RecordOk (e.apply s) := by
  cases e with
  | completed | jumped | loaded | stored => exact h.quiet rfl rfl
  | violated n v => exact h.raise nofun
  | unimplemented => exact RecordOk.raise (s := { s with cs := .fetch }) h nofun

section
variable {s t : State}

theorem Transition.wf (h : Transition s t) (hwf : Memory.wf s.dm = true) : Memory.wf t.dm = true := by
  cases h with
  | fetched | beyond | decoded => exact hwf
  | executed e => exact e.apply_wf s hwf
  | reset => exact Memory.reset_wf

/-- Fetch makes `ir`, `mar` and `pc` consistent, and nothing before the end of Execute touches them. -/
theorem Transition.fetchedConsistent (h : Transition s t) (hf : FetchedConsistent s) : FetchedConsistent t := by
  cases h with
  | fetched w _ hw => exact fun _ => ⟨hw, rfl⟩
  | beyond => exact hf
  | decoded hcs => exact fun _ => hf (by simp [hcs])
  | executed e =>
    cases e with
    | violated => exact hf
    | completed | jumped | loaded | stored | unimplemented => exact fun hne => absurd rfl hne
  | reset => exact fun hne => absurd rfl hne

/-- Decode makes the decoded fields those of `ir`; only an operand's BoundsViolation stays in Execute after it. -/
theorem Transition.decodedConsistent (h : Transition s t) (hd : DecodedConsistent s) : DecodedConsistent t := by
  cases h with
  | fetched => exact nofun
  | beyond => exact hd
  | decoded => exact fun _ => ⟨rfl, rfl, rfl⟩
  | executed e =>
    cases e with
    | violated => exact hd
    | completed | jumped | loaded | stored | unimplemented => exact nofun
  | reset => exact nofun

theorem Transition.recordOk (h : Transition s t) (hr : RecordOk s) : RecordOk t := by
  cases h with
  | fetched | decoded => exact hr.quiet rfl rfl
  | beyond => exact hr.raise nofun
  | executed e => exact hr.effect e
  | reset => exact RecordOk.raise (s := s.resetAll) hr nofun

theorem Transition.inv (h : Transition s t) (hi : Inv s) : Inv t := by
  obtain ⟨hwf, hf, hd, hr⟩ := hi
  exact ⟨h.wf hwf, h.fetchedConsistent hf, h.decodedConsistent hd, h.recordOk hr⟩

end

theorem inv_launch (prog : List Word) : Inv (State.launch prog) :=
  ⟨rfl, fun hne => absurd rfl hne, nofun, List.nodup_nil, List.not_mem_nil, .inl rfl⟩

/-- Settles O46: reset is the launch of the empty program. -/
theorem invAtLaunch : Obligations.InvAtLaunch := ⟨inv_launch [], inv_launch⟩

/-- Settles O47: every transition keeps the invariant, and a step is a chain of transitions. -/
theorem stepKeepsInv : Obligations.StepKeepsInv := fun _ _ hi h =>
  stepInstruction_induction (R := fun s t => Inv s → Inv t) (fun _ => id) (fun hst htu => htu ∘ hst) Transition.inv h hi

end Sys2Proof.Machine
end

section
/-! PROOF. What no step reads and no step writes (R20, R27, R29, R32, R52, R64): the status register, the memory address
register and the data bytes from 256 on are inert, and program memory is constant. -/

namespace Sys2Proof.Machine

/-! ## States that agree on what the machine can act on -/

section
variable {s t : State}

theorem SameActive.sameReads (h : SameActive s t) : SameReads s t := by
  obtain ⟨hregs, -, -, -, -, -, -, -, hbytes⟩ := h
  exact ⟨hregs, hbytes⟩

theorem SameActive.cs_eq (h : SameActive s t) : t.cs = s.cs := by
  obtain ⟨-, -, -, -, -, -, hcs, -, -⟩ := h
  exact hcs

theorem SameActive.pc_eq (h : SameActive s t) : t.pc = s.pc := by
  obtain ⟨-, hpc, -⟩ := h
  exact hpc

theorem SameActive.progRead_pc (h : SameActive s t) : t.progRead t.pc = s.progRead s.pc := by
  obtain ⟨-, hpc, -, -, -, -, -, hpm, -⟩ := h
  simp [State.progRead, hpc, hpm]

theorem SameActive.raise (h : SameActive s t) (e : Event) : SameActive (s.raise e) (t.raise e) := h

theorem SameActive.fetched (h : SameActive s t) (w : Word) : SameActive (s.fetched w) (t.fetched w) := by
  obtain ⟨hregs, hpc, -, hop, h1, h2, -, hpm, hbytes⟩ := h
  exact ⟨hregs, congrArg (· + 1) hpc, rfl, hop, h1, h2, rfl, hpm, hbytes⟩

theorem SameActive.decoded (h : SameActive s t) : SameActive s.decoded t.decoded := by
  obtain ⟨hregs, hpc, hir, -, -, -, -, hpm, hbytes⟩ := h
  exact ⟨hregs, hpc, hir, congrArg opcodeField hir, congrArg operand1Field hir, congrArg operand2Field hir, rfl, hpm,
    hbytes⟩

theorem SameActive.reset (h : SameActive s t) (e e' : Event) : SameActive (s.resetAll.raise e) (t.resetAll.raise e') := by
  obtain ⟨-, -, -, -, -, -, -, hpm, -⟩ := h
  exact ⟨rfl, rfl, rfl, rfl, rfl, rfl, rfl, hpm, fun _ _ => rfl⟩

/-- The canonical forms are what makes a stored byte the byte read back. -/
theorem SameActive.effect (h : SameActive s t) (hs : Memory.wf s.dm = true) (ht : Memory.wf t.dm = true) (e : Effect) :
    SameActive (e.apply s) (e.apply t) := by
  obtain ⟨hregs, hpc, hir, hop, h1, h2, hcs, hpm, hbytes⟩ := h
  cases e with
  | completed => exact ⟨hregs, hpc, hir, hop, h1, h2, rfl, hpm, hbytes⟩
  | jumped target => exact ⟨hregs, rfl, hir, hop, h1, h2, rfl, hpm, hbytes⟩
  | loaded i v => exact ⟨congrArg (·.set i v) hregs, hpc, hir, hop, h1, h2, rfl, hpm, hbytes⟩
  | stored a v =>
    refine ⟨hregs, hpc, hir, hop, h1, h2, rfl, hpm, fun x hx => ?_⟩
    calc Memory.read (Memory.write t.dm (dataAddress a) v) x
        = if x = dataAddress a then v else Memory.read t.dm x := Memory.read_write ht _ _ _
      _ = if x = dataAddress a then v else Memory.read s.dm x := by rw [hbytes x hx]
      _ = Memory.read (Memory.write s.dm (dataAddress a) v) x := (Memory.read_write hs _ _ _).symm
  | violated n v => exact ⟨hregs, hpc, hir, hop, h1, h2, hcs, hpm, hbytes⟩
  | unimplemented => exact ⟨hregs, hpc, hir, hop, h1, h2, rfl, hpm, hbytes⟩

theorem SameActive.executeTransition (h : SameActive s t) (c : Config) (hs : Memory.wf s.dm = true)
    (ht : Memory.wf t.dm = true) :
    ∃ s' t', executeTransition c s = .next s' ∧ executeTransition c t = .next t' ∧ SameActive s' t' ∧
      t'.event = s'.event := by
  have ⟨_, _, _, hop, h1, h2, _⟩ := h
  exact executeTransition_agree (R := fun a b => SameActive a b ∧ b.event = a.event)
    (show SameOpcode c c s.opcode t.opcode by rw [hop]; rfl) h1 h2 h.sameReads
    (fun e => ⟨h.effect hs ht e, e.apply_event hop⟩) ⟨h.reset _ _, congrArg Event.unknownOpcode hop⟩

/-- Lock step: whole instructions keep the agreement. -/
theorem SameActive.stepInstruction (h : SameActive s t) (c : Config) (hs : Memory.wf s.dm = true)
    (ht : Memory.wf t.dm = true) :
    ∃ s' t', stepInstruction c s = .next s' ∧ stepInstruction c t = .next t' ∧ SameActive s' t' ∧
      t'.event = s'.event := by
  cases hcs : s.cs with
  | fetch =>
    have hcs' := h.cs_eq.trans hcs
    cases hw : s.progRead s.pc with
    | none =>
      have hw' := h.progRead_pc.trans hw
      refine ⟨_, _, stepInstruction_of_fetch_none hcs hw, stepInstruction_of_fetch_none hcs' hw', ?_⟩
      rw [h.pc_eq]
      exact ⟨h.raise _, rfl⟩
    | some w =>
      rw [stepInstruction_of_fetch hcs hw, stepInstruction_of_fetch hcs' (h.progRead_pc.trans hw)]
      exact (h.fetched w).decoded.executeTransition c hs ht
  | decode =>
    rw [stepInstruction_of_decode hcs, stepInstruction_of_decode (h.cs_eq.trans hcs)]
    exact h.decoded.executeTransition c hs ht
  | execute =>
    rw [stepInstruction_of_execute hcs, stepInstruction_of_execute (h.cs_eq.trans hcs)]
    exact h.executeTransition c hs ht

end

/-- Settles O49: `SameActive` is kept in lock step. -/
theorem unreadStateIsInert : Obligations.UnreadStateIsInert := fun _ _ hs ht h => h.stepInstruction defaultConfig hs ht

/-! ## The status register -/

/-- Execute of an instruction keeps the status register, and does the same with any other value in it. -/
theorem exec_with_sr {i : Instr} {s t : State} (v : BitVec 5) (h : exec i s = .next t) :
    t.sr = s.sr ∧ exec i { s with sr := v } = .next { t with sr := v } := by
  obtain ⟨e, he⟩ := exec_effect i s
  cases h.symm.trans (he s (.refl s))
  refine ⟨e.apply_sr s, ?_⟩
  rw [he { s with sr := v } ⟨rfl, fun _ _ => rfl⟩, e.apply_with_sr]

/-- What the host's write does: one byte, or the event and nothing (R196). -/
theorem writeDataMemory_cases (s : State) (a : Nat) (v : Byte) :
    writeDataMemory a v s = { s with dm := Memory.write s.dm a v }.quiet ∨
    writeDataMemory a v s = s.raise (.dataAddr a) := by
  unfold writeDataMemory State.memWrite
  cases isDataAddress a
  · exact .inr rfl
  · exact .inl rfl

theorem Transition.sr_eq_zero {s t : State} (h : Transition s t) (hs : s.sr = 0) : t.sr = 0 := by
  cases h with
  | fetched | beyond | decoded => exact hs
  | executed e => exact (e.apply_sr s).trans hs
  | reset => rfl

theorem perform_sr_eq_zero {c : Config} {op : HostOp} {s t : State} (h : perform c op s = .next t) :
    s.sr = 0 → t.sr = 0 := by
  refine perform_induction (R := fun s t => s.sr = 0 → t.sr = 0) (fun _ => id) (fun hst htu => htu ∘ hst)
    Transition.sr_eq_zero (fun _ _ => rfl) (fun s a v hs => ?_) h
  obtain hw | hw := writeDataMemory_cases s a v <;> rw [hw] <;> exact hs

/-- Settles O43: an effect neither reads nor writes the status register, so it keeps the 0 of the launch. -/
theorem statusRegisterUnused : Obligations.StatusRegisterUnused :=
  ⟨fun _ _ _ v h => exec_with_sr v h, fun _ _ _ => Reachable.induction (P := fun s => s.sr = 0) rfl perform_sr_eq_zero⟩

/-! ## Program memory -/

theorem Transition.pm_eq {s t : State} (h : Transition s t) : t.pm = s.pm := by
  cases h with
  | fetched | beyond | decoded | reset => rfl
  | executed e => exact e.apply_pm s

theorem writeDataMemory_pm (s : State) (a : Nat) (v : Byte) : (writeDataMemory a v s).pm = s.pm := by
  obtain h | h := writeDataMemory_cases s a v <;> rw [h] <;> rfl

theorem perform_pm {c : Config} {op : HostOp} {s t : State} (h : perform c op s = .next t) : t.pm = s.pm :=
  perform_induction (R := fun s t => t.pm = s.pm) (fun _ => rfl) (fun hst htu => htu.trans hst) Transition.pm_eq
    (fun _ => rfl) writeDataMemory_pm h

/-- Settles O44: no transition, no reset and no host write touches program memory. -/
theorem programMemoryImmutable : Obligations.ProgramMemoryImmutable :=
  ⟨fun _ _ _ _ => perform_pm, fun _ _ => perform_pm (c := defaultConfig) (op := .stepInstruction)⟩

end Sys2Proof.Machine
end

section
/-! PROOF. The operations on one status bit (R26). -/

namespace Sys2Proof.Machine

theorem getLsbD_statusMask : ∀ b c : Fin 5, (statusMask b).getLsbD c.val = decide (c = b) := by
  decide

theorem srTest_srSet (b c : Fin 5) (s : State) : srTest c (srSet b s) = if c = b then true else srTest c s := by
  rw [srTest, srSet_sr, BitVec.getLsbD_or, getLsbD_statusMask]
  by_cases h : c = b <;> simp [h, srTest]

theorem srTest_srClear (b c : Fin 5) (s : State) : srTest c (srClear b s) = if c = b then false else srTest c s := by
  rw [srTest, srClear_sr, BitVec.getLsbD_and, BitVec.getLsbD_not, getLsbD_statusMask]
  by_cases h : c = b <;> simp [h, srTest]

/-- Settles O57: setting and clearing act through a mask that has the one bit. -/
theorem statusBitOperations : Obligations.StatusBitOperations := fun b c s =>
  ⟨rfl, srTest_srSet b c s, srTest_srClear b c s, rfl, rfl⟩

end Sys2Proof.Machine
end

section
/-! PROOF. The instruction cycle under any configuration (R34, R86, R116). -/

namespace Sys2Proof.Machine

/-- Settles O14: Fetch and Decode prepare the state that Execute classifies as the decoder does the word. -/
theorem instructionRunsUnderAnyConfig : Obligations.InstructionRunsUnderAnyConfig := by
  refine ⟨fun c s w i hcs hw hi => ?_, fun _ => rfl⟩
  calc stepInstruction c s
      = executeTransition c (s.fetched w).decoded := stepInstruction_of_fetch hcs hw
    _ = exec i (s.fetched w).decoded := executeTransition_of_ok hi

end Sys2Proof.Machine
end

section
/-! PROOF. The byte form of a word (R54). -/

namespace Sys2Proof

/-- The bytes of a word spell that word: its three fields are all of it (R81). -/
theorem wordOfBytes_wordBytes (w : Word) : wordOfBytes (wordBytes w) = .ok w :=
  congrArg Except.ok (packWord_fields w)

theorem decodeBytes_of_ok {bytes : List Byte} {w : Word} (h : wordOfBytes bytes = .ok w) :
    decodeBytes bytes = decode w := by
  simp [decodeBytes, h]

/-- Settles O6: the byte form of a word loses nothing, so the decoder is given back the word. -/
theorem bytesOfWord : Obligations.BytesOfWord := fun w => ⟨rfl, decodeBytes_of_ok (wordOfBytes_wordBytes w)⟩

end Sys2Proof
end

section
/-! PROOF. Which data bytes a step reaches (R52): each address an instruction forms exists, so that every step has a next
state, and lies below 256. -/

namespace Sys2Proof.Machine

/-! ## Progress -/

/-- A step always has a next state (R110, R226): it is a failing Fetch or one Execute, and no transition stops. -/
theorem stepInstruction_next (c : Config) (s : State) : ∃ t, stepInstruction c s = .next t := by
  obtain ⟨-, -, h⟩ | ⟨p, h, hp, -⟩ := stepInstruction_cases c s
  · exact ⟨_, h⟩
  · rw [h, ← stepState_of_execute hp]
    exact stepState_next c p

/-- Settles O22: the default configuration's case of `stepInstruction_next`. -/
theorem everyStepHasNext : Obligations.EveryStepHasNext := stepInstruction_next defaultConfig

/-! ## The bytes from address 256 on -/

/-- The one store there is goes to an 8-bit address. -/
theorem Effect.apply_read_high (e : Effect) {s : State} (hwf : Memory.wf s.dm = true) {a : Nat} (ha : 256 ≤ a) :
    Memory.read (e.apply s).dm a = Memory.read s.dm a := by
  cases e with
  | stored field v =>
    have hne : a ≠ dataAddress field := (Nat.lt_of_lt_of_le (dataAddress_lt field) ha).ne'
    exact (Memory.read_write hwf (dataAddress field) v a).trans (if_neg hne)
  | completed | jumped | loaded | violated | unimplemented => rfl

/-- Only the reset of an undeclared opcode changes a byte above (R211). -/
theorem Transition.read_high {s t : State} (h : Transition s t) (hwf : Memory.wf s.dm = true) (hr : ¬ IsReset t.event)
    {a : Nat} (ha : 256 ≤ a) : Memory.read t.dm a = Memory.read s.dm a := by
  cases h with
  | fetched | beyond | decoded => rfl
  | executed e => exact e.apply_read_high hwf ha
  | reset => exact absurd ⟨s.opcode, rfl⟩ hr

/-- Data memory after a step is what its last transition made of data memory before it: Fetch and Decode leave it alone
(R118). -/
theorem stepInstruction_last_transition {c : Config} {s t : State} (h : stepInstruction c s = .next t) :
    ∃ p : State, p.dm = s.dm ∧ Transition p t := by
  obtain ⟨hcs, hw, h'⟩ | ⟨p, h', hp, hprepared⟩ := stepInstruction_cases c s
  · cases h'.symm.trans h
    exact ⟨s, rfl, .beyond hcs hw⟩
  · have hlast : stepState c p = .next t := (stepState_of_execute hp).trans (h'.symm.trans h)
    refine ⟨p, ?_, transition_of_stepState hlast⟩
    obtain ⟨w, -, -, rfl⟩ | ⟨-, rfl⟩ | ⟨-, rfl⟩ := hprepared <;> rfl

/-- Settles O45: the last transition of a step is no reset, and then keeps these bytes. -/
theorem highDataUnreached : Obligations.HighDataUnreached := by
  intro s t hwf h hr a ha
  obtain ⟨p, hdm, hlast⟩ := stepInstruction_last_transition h
  rw [← hdm] at hwf ⊢
  exact hlast.read_high hwf hr ha

end Sys2Proof.Machine
end

section
/-! PROOF. OUT and IN as effects (R132, R133), and what IN finds after OUT (R57, R61). -/

namespace Sys2Proof.Machine

theorem exec_in_of_lt (a : Byte) {d : Byte} (hd : d.toNat < Config.nreg) (s : State) :
    exec (.in_ d a) s = .next ((Effect.loaded ⟨d.toNat, hd⟩ (Memory.read s.dm (dataAddress a))).apply s) :=
  (withReg_of_lt .first s _ hd).trans (withLoaded_eq a s _)

theorem exec_out_of_lt (a : Byte) {r : Byte} (hr : r.toNat < Config.nreg) (s : State) :
    exec (.out a r) s = .next ((Effect.stored a (s.readReg ⟨r.toNat, hr⟩)).apply s) :=
  (withReg_of_lt .second s _ hr).trans (withStored_eq a _ s _)

theorem Effect.readReg_loaded (s : State) (i : Fin Config.nreg) (v : Byte) :
    ((Effect.loaded i v).apply s).readReg i = v :=
  (State.readReg_writeReg s i i v).trans (if_pos rfl)

theorem Effect.read_stored {s : State} (hwf : Memory.wf s.dm = true) (a v : Byte) :
    Memory.read ((Effect.stored a v).apply s).dm (dataAddress a) = v :=
  (Memory.read_write hwf (dataAddress a) v (dataAddress a)).trans (if_pos rfl)

/-- Settles O29: IN loads the byte at the address, which is the one OUT stored there, and stores none itself. -/
theorem outThenIn : Obligations.OutThenIn := by
  intro a r d s t u hr hd hwf hout hin
  cases (exec_out_of_lt a hr s).symm.trans hout
  cases (exec_in_of_lt a hd _).symm.trans hin
  exact ⟨(Effect.readReg_loaded _ _ _).trans (Effect.read_stored hwf a _), fun _ => rfl⟩

end Sys2Proof.Machine
end

section
/-! PROOF. The decoder and the encoder are inverse to each other (R80 to R82, R86, R88), and the class of the opcode field
alone decides what a word decodes to (R85). -/

namespace Sys2Proof

/-! ## What the decoder answers for each class -/

section
variable {c : Config}

theorem decodeFields_opc (hok : Config.Ok c) {m : Mnemonic} (hd : c.declared m = true) (a b : Byte) :
    decodeFields c (c.opc m) a b = .ok (Instr.make m a b) := by
  rw [decodeFields, classOf_opc hok hd]

theorem decodeFields_further (hok : Config.Ok c) {f : FurtherMnemonic} (hf : f ∈ c.further) (a b : Byte) :
    decodeFields c f.value a b = .error (.furtherMnemonic f.name) := by
  rw [decodeFields, classOf_further hok hf]

/-- Only an undeclared value is rejected as unknown. -/
theorem undeclared_iff_decodeFields (c : Config) (op a b : Byte) :
    Undeclared c op ↔ decodeFields c op a b = .error (.unknownOpcode op) := by
  refine ⟨decodeFields_undeclared a b, fun h => ?_⟩
  obtain ⟨f, hname, -⟩ | ⟨-, hu⟩ := decodeFields_error h
  · cases hname
  · exact hu

/-- Only the value of a declared mnemonic of the table gives an instruction. -/
theorem exists_opc_iff_decodeFields (hok : Config.Ok c) (op a b : Byte) :
    (∃ m, c.declared m = true ∧ c.opc m = op) ↔ ∃ i, decodeFields c op a b = .ok i := by
  constructor
  · rintro ⟨m, hd, rfl⟩
    exact ⟨_, decodeFields_opc hok hd a b⟩
  · rintro ⟨i, hi⟩
    obtain ⟨hop, -, -, hd, -⟩ := decodeFields_ok hi
    exact ⟨i.mnemonic, hd, hop⟩

/-! ## The round trips -/

theorem decodeWith_encodeWith (hok : Config.Ok c) {i : Instr} (hd : c.declared i.mnemonic = true) :
    decodeWith c (encodeWith c i) = .ok i := by
  obtain ⟨hop, h1, h2⟩ := fields_encodeWith c i
  rw [decodeWith, hop, h1, h2, decodeFields_opc hok hd, Instr.make_parts]

theorem encodeWith_of_decodeWith {w : Word} {i : Instr} (h : decodeWith c w = .ok i) : encodeWith c i = w := by
  obtain ⟨hop, h1, h2, -, -⟩ := decodeFields_ok h
  rw [encodeWith, hop, h1, h2, packWord_fields]

end

/-- The default configuration declares every mnemonic, so there the round trip has no premise. -/
theorem decode_encode (i : Instr) : decode (encode i) = .ok i := decodeWith_encodeWith defaultConfig_ok rfl

theorem le_opcodeField_iff_decode (w : Word) :
    0x23 ≤ (opcodeField w).toNat ↔ decode w = .error (.unknownOpcode (opcodeField w)) :=
  (undeclared_defaultConfig_iff_le_toNat _).trans (undeclared_iff_decodeFields _ _ _ _)

/-- Settles O1: the fields of the word are those packed, and injectivity makes the class of the opcode its mnemonic. -/
theorem decodeEncode : Obligations.DecodeEncode := fun _ hok _ hd => decodeWith_encodeWith hok hd

/-- Settles O3: the decoded instruction holds the three fields, and they are the whole word. -/
theorem encodeDecode : Obligations.EncodeDecode := fun _ _ _ h => encodeWith_of_decodeWith h

/-- Settles O4: one lemma per class of the opcode field. -/
theorem undeclaredWords : Obligations.UndeclaredWords := by
  refine fun w => ⟨fun c hok => ⟨exists_opc_iff_decodeFields hok _ _ _, fun f hf hv => ?further,
    undeclared_iff_decodeFields c _ _ _⟩, le_opcodeField_iff_decode w⟩
  case further =>
    rw [decodeWith, ← hv]
    exact decodeFields_further hok hf _ _

/-- Settles O5: the three declared words are encodings; 0xAA lies above the default map. -/
theorem knownWords : Obligations.KnownWords :=
  ⟨decode_encode (.ldi 16 1), decode_encode (.out 0 16), decode_encode (.jmp 5 0xFF),
    (le_opcodeField_iff_decode 0xAABBCC).mp (by decide)⟩

end Sys2Proof
end

section
/-! PROOF. The ignored operand fields (R84, R91). -/

namespace Sys2Proof.Machine

theorem execNop_ignores (a b a' b' : Byte) (s : State) : execNop a b s = execNop a' b' s := rfl

theorem execJmp_ignores (target b b' : Byte) (s : State) : execJmp target b s = execJmp target b' s := rfl

/-- Settles O7: NOP and JMP do not read the fields they ignore; no other instruction has such a field. -/
theorem ignoredFields : Obligations.IgnoredFields := by
  intro i s
  cases i with
  | nop a b => exact execNop_ignores 0 0 a b s
  | jmp target b => exact execJmp_ignores target 0 b s
  | _ => rfl

end Sys2Proof.Machine
end

section
/-! PROOF. The naming services (R93, R96). -/

namespace Sys2Proof.Machine

/-! ## The name of an opcode value -/

section
variable {c : Config}

theorem opcodeName_opc (hok : Config.Ok c) {m : Mnemonic} (hd : c.declared m = true) :
    opcodeName c (c.opc m) = mnemonicName m := by
  rw [opcodeName, classOf_opc hok hd]

theorem opcodeName_further (hok : Config.Ok c) {f : FurtherMnemonic} (hf : f ∈ c.further) :
    opcodeName c f.value = f.name := by
  rw [opcodeName, classOf_further hok hf]

theorem opcodeName_undeclared {op : Byte} (h : Undeclared c op) : opcodeName c op = "Unknown" := by
  rw [opcodeName, classOf_undeclared h, unknownName]

end

/-- R86: the values 0x00 to 0x22 in order are those of the table. -/
theorem range_eq_map_opc : (List.range 35).map (BitVec.ofNat 8) = Mnemonic.all.map opc := by
  decide

theorem opcodeName_defaultConfig_range :
    (List.range 35).map (fun n => opcodeName defaultConfig (BitVec.ofNat 8 n)) = Mnemonic.all.map mnemonicName := by
  calc (List.range 35).map (fun n => opcodeName defaultConfig (BitVec.ofNat 8 n))
      = ((List.range 35).map (BitVec.ofNat 8)).map (opcodeName defaultConfig) := by rw [List.map_map, Function.comp_def]
    _ = (Mnemonic.all.map opc).map (opcodeName defaultConfig) := by rw [range_eq_map_opc]
    _ = Mnemonic.all.map (fun m => opcodeName defaultConfig (opc m)) := List.map_map
    _ = Mnemonic.all.map mnemonicName := List.map_congr_left fun _ _ => opcodeName_opc defaultConfig_ok rfl

/-- Settles O58: a name follows the class of the value, and the default map numbers the table. -/
theorem opcodeNames : Obligations.OpcodeNames :=
  ⟨fun _ hok => ⟨fun _ hd => opcodeName_opc hok hd, fun _ hf => opcodeName_further hok hf,
      fun _ hu => opcodeName_undeclared hu⟩,
    opcodeName_defaultConfig_range,
    fun op hop => opcodeName_undeclared ((undeclared_defaultConfig_iff_le_toNat op).mp hop)⟩

/-! ## Binary digits -/

/-- The digit of a value at a position, as `binaryDigits` writes it. -/
def binaryDigit (value k : Nat) : Char := if value.testBit k then '1' else '0'

/-- A numeral read so far, and one more digit after it: one step of the reading O59 uses. -/
def appendDigit (n : Nat) (digit : Char) : Nat := 2 * n + (if digit = '1' then 1 else 0)

theorem binaryDigits_eq_map (value width : Nat) :
    binaryDigits value width =
      (List.range (max (binaryDigitCount value) width)).reverse.map (binaryDigit value) := rfl

theorem binaryDigit_eq_zero_or_one (value k : Nat) : binaryDigit value k = '0' ∨ binaryDigit value k = '1' := by
  unfold binaryDigit
  cases value.testBit k
  · exact .inl rfl
  · exact .inr rfl

theorem appendDigit_binaryDigit (n value k : Nat) :
    appendDigit n (binaryDigit value k) = 2 * n + (value.testBit k).toNat := by
  unfold appendDigit binaryDigit
  cases value.testBit k <;> rfl

/-- Reading the digits below a position appends the value's remainder there to what was read before. -/
theorem foldl_appendDigit_range (value count n : Nat) :
    ((List.range count).reverse.map (binaryDigit value)).foldl appendDigit n = n * 2 ^ count + value % 2 ^ count := by
  induction count generalizing n with
  | zero => simp [Nat.mod_one]
  | succ k ih =>
    simp only [List.range_succ, List.reverse_append, List.reverse_singleton, List.singleton_append, List.map_cons,
      List.foldl_cons, appendDigit_binaryDigit, ih]
    rw [Nat.mod_pow_succ, Nat.toNat_testBit]
    ring

theorem binaryDigitCount_eq (value : Nat) :
    binaryDigitCount value = if value = 0 then 1 else 1 + Nat.log 2 value := by
  rw [binaryDigitCount, Nat.log2_eq_log_two]

theorem lt_two_pow_binaryDigitCount (value : Nat) : value < 2 ^ binaryDigitCount value := by
  unfold binaryDigitCount
  split
  · omega
  · rw [Nat.add_comm]
    exact Nat.lt_log2_self

theorem length_binaryDigits (value width : Nat) :
    (binaryDigits value width).length = max (binaryDigitCount value) width := by
  simp [binaryDigits_eq_map]

/-- The digits are enough to hold the value, so the remainder read is the value itself. -/
theorem foldl_appendDigit_binaryDigits (value width : Nat) :
    (binaryDigits value width).foldl appendDigit 0 = value := by
  have hlt : value < 2 ^ max (binaryDigitCount value) width :=
    (lt_two_pow_binaryDigitCount value).trans_le (Nat.pow_le_pow_right Nat.two_pos (Nat.le_max_left _ _))
  rw [binaryDigits_eq_map, foldl_appendDigit_range, Nat.mod_eq_of_lt hlt]
  omega

/-- Settles O59: the digits are the bits of the value below a bound on it. The model's function has the plain name. -/
theorem formatBinary_spec : Obligations.FormatBinary := by
  refine fun value width => ⟨rfl, ?length, ?digits, foldl_appendDigit_binaryDigits value width⟩
  case length => rw [length_binaryDigits, binaryDigitCount_eq]
  case digits =>
    intro digit hmem
    rw [binaryDigits_eq_map] at hmem
    obtain ⟨k, -, rfl⟩ := List.mem_map.mp hmem
    exact binaryDigit_eq_zero_or_one value k

end Sys2Proof.Machine
end

section
/-! PROOF. The three transitions one by one (R111, R112): what each writes. -/

namespace Sys2Proof.Machine

/-! ## Fetch -/

section
variable {c : Config} {s : State}

theorem stepState_of_fetch_some {w : Word} (h : s.cs = .fetch) (hw : s.progRead s.pc = some w) :
    stepState c s = .next (s.fetched w) := by
  simp [stepState_of_fetch h, fetchTransition, hw]

theorem stepState_of_fetch_none (h : s.cs = .fetch) (hw : s.progRead s.pc = none) :
    stepState c s = .next (s.raise (.progFetch s.pc)) := by
  simp [stepState_of_fetch h, fetchTransition, hw, State.violate]

end

/-- The increment of an 8-bit index is the one modulo 256 (R24). -/
theorem add_one_eq_ofNat_mod (a : Byte) : a + 1 = BitVec.ofNat 8 ((a.toNat + 1) % 256) := by
  apply BitVec.eq_of_toNat_eq
  simp

/-- Settles O8: an index is populated exactly below the length of program memory. The model's function has the plain
name. -/
theorem fetchTransition_spec : Obligations.FetchTransition := by
  refine fun c s hcs => ⟨fun w hw => ?populated, fun hlen => ?beyond⟩
  case populated => rw [stepState_of_fetch_some hcs hw, State.fetched, add_one_eq_ofNat_mod]
  case beyond => exact stepState_of_fetch_none hcs (List.getElem?_eq_none hlen)

/-! ## Decode -/

theorem getLsbD_opcodeField (w : Word) {k : Nat} (hk : k < 8) : (opcodeField w).getLsbD k = w.getLsbD (16 + k) := by
  simp [opcodeField, hk]

theorem getLsbD_operand1Field (w : Word) {k : Nat} (hk : k < 8) : (operand1Field w).getLsbD k = w.getLsbD (8 + k) := by
  simp [operand1Field, hk]

theorem getLsbD_operand2Field (w : Word) {k : Nat} (hk : k < 8) : (operand2Field w).getLsbD k = w.getLsbD k := by
  simp [operand2Field, hk]

/-- Settles O9: Decode writes the three fields of the instruction register. The model's function has the plain name. -/
theorem decodeTransition_spec : Obligations.DecodeTransition := fun _ s hcs =>
  ⟨opcodeField s.ir, operand1Field s.ir, operand2Field s.ir, stepState_of_decode hcs,
    fun _ => getLsbD_opcodeField s.ir, fun _ => getLsbD_operand1Field s.ir, fun _ => getLsbD_operand2Field s.ir⟩

end Sys2Proof.Machine
end

section
/-! PROOF. What holds of every transition (R117, R118): the order of the cycle states, and which transition may change which
state. -/

namespace Sys2Proof.Machine

/-- Raising an event touches the event record alone (R217). -/
theorem SameMachine.raise (s : State) (e : Event) : SameMachine s (s.raise e) :=
  ⟨rfl, rfl, rfl, rfl, rfl, rfl, rfl, rfl, rfl, rfl, rfl⟩

/-- An effect ends the instruction, or is a BoundsViolation, which changes nothing (R113, R214). -/
theorem Effect.apply_cs_or_sameMachine (e : Effect) (s : State) :
    ((e.apply s).event.isBounds = false ∧ (e.apply s).cs = .fetch) ∨
    ((e.apply s).event.isBounds = true ∧ SameMachine s (e.apply s)) := by
  cases e with
  | violated n v => exact .inr ⟨rfl, .raise s _⟩
  | completed | jumped | loaded | stored | unimplemented => exact .inl ⟨rfl, rfl⟩

section
variable {s t : State}

/-- A transition moves on in the loop of R110, or is a BoundsViolation, which changes nothing (R216). -/
theorem Transition.cs_or_sameMachine (h : Transition s t) :
    (t.event.isBounds = false ∧ t.cs = successor s.cs) ∨ (t.event.isBounds = true ∧ SameMachine s t) := by
  cases h with
  | fetched w hcs | decoded hcs | reset hcs => exact .inl ⟨rfl, by rw [hcs]; rfl⟩
  | beyond => exact .inr ⟨rfl, .raise s _⟩
  | executed e hcs =>
    rw [hcs]
    exact e.apply_cs_or_sameMachine s

/-! ## Which transition may change which state -/

theorem Transition.regs_dm_eq (h : Transition s t) (hcs : s.cs ≠ .execute) : t.regs = s.regs ∧ t.dm = s.dm := by
  cases h with
  | fetched | beyond | decoded => exact ⟨rfl, rfl⟩
  | executed _ hx | reset hx => exact absurd hx hcs

theorem Transition.ir_mar_eq_or_reset (h : Transition s t) (hcs : s.cs ≠ .fetch) :
    (t.ir = s.ir ∧ t.mar = s.mar) ∨ (IsReset t.event ∧ t.ir = 0 ∧ t.mar = 0) := by
  cases h with
  | fetched _ hf | beyond hf => exact absurd hf hcs
  | decoded => exact .inl ⟨rfl, rfl⟩
  | executed e => exact .inl ⟨e.apply_ir s, e.apply_mar s⟩
  | reset => exact .inr ⟨⟨s.opcode, rfl⟩, rfl, rfl⟩

theorem Transition.fields_eq_or_reset (h : Transition s t) (hcs : s.cs ≠ .decode) :
    (t.opcode = s.opcode ∧ t.operand1 = s.operand1 ∧ t.operand2 = s.operand2) ∨
    (IsReset t.event ∧ t.opcode = 0 ∧ t.operand1 = 0 ∧ t.operand2 = 0) := by
  cases h with
  | fetched | beyond => exact .inl ⟨rfl, rfl, rfl⟩
  | decoded hd => exact absurd hd hcs
  | executed e => exact .inl ⟨e.apply_opcode s, e.apply_operand1 s, e.apply_operand2 s⟩
  | reset => exact .inr ⟨⟨s.opcode, rfl⟩, rfl, rfl, rfl⟩

variable {c : Config}

theorem stepState_pc_of_decode (h : stepState c s = .next t) (hcs : s.cs = .decode) : t.pc = s.pc := by
  cases (stepState_of_decode hcs).symm.trans h
  rfl

/-- Execute writes the program counter for JMP and in the reset alone. -/
theorem stepState_pc_of_execute (h : stepState c s = .next t) (hcs : s.cs = .execute) :
    t.pc = s.pc ∨ (s.opcode = c.opc .JMP ∧ t.pc = s.operand1) ∨ (IsReset t.event ∧ t.pc = 0) := by
  rw [stepState_of_execute hcs] at h
  obtain ⟨_, _, _, h', -, hpc⟩ | ⟨_, _, h'⟩ | h' | h' := executeTransition_answers c s <;> cases h'.symm.trans h
  · exact hpc.imp_right .inl
  · exact .inl rfl
  · exact .inl rfl
  · exact .inr (.inr ⟨⟨s.opcode, rfl⟩, rfl⟩)

end

/-- Settles O11: the two kinds of transition are told apart by their event. -/
theorem cycleClosure : Obligations.CycleClosure := by
  intro c s
  obtain ⟨t, ht⟩ := stepState_next c s
  refine ⟨t, ht, ?_⟩
  obtain ⟨hb, hcs⟩ | ⟨hb, hsame⟩ := (transition_of_stepState ht).cs_or_sameMachine
  · exact ⟨fun _ => hcs, by simp [hb]⟩
  · exact ⟨by simp [hb], fun _ => hsame⟩

/-- Settles O12: one lemma per clause. -/
theorem transitionFrames : Obligations.TransitionFrames := by
  intro c s t h
  have htr : Transition s t := transition_of_stepState h
  refine ⟨fun hcs => ?_, stepState_pc_of_decode h, stepState_pc_of_execute h, htr.ir_mar_eq_or_reset,
    htr.fields_eq_or_reset⟩
  obtain ⟨hregs, hdm⟩ := htr.regs_dm_eq hcs
  exact ⟨hregs, fun _ => by rw [hdm]⟩

end Sys2Proof.Machine
end

section
/-! PROOF. `step_instruction()` (R116): it is the loop of the spec, and it runs the decoded instruction from whatever cycle
state it begins in. -/

namespace Sys2Proof.Machine

/-- Settles O17: the equations of a step from the three cycle states, each beside that of the state one transition later. -/
theorem stepInstructionLoop : Obligations.StepInstructionLoop := by
  intro c s
  cases hcs : s.cs with
  | fetch =>
    cases hw : s.progRead s.pc with
    | none =>
      refine ⟨_, stepState_of_fetch_none hcs hw, ?_⟩
      rw [stepInstruction_of_fetch_none hcs hw, if_pos (.inr rfl)]
    | some w =>
      refine ⟨_, stepState_of_fetch_some hcs hw, ?_⟩
      rw [stepInstruction_of_fetch hcs hw, if_neg (by simp [State.fetched, Event.isBounds]),
        stepInstruction_of_decode (s := s.fetched w) rfl]
  | decode =>
    refine ⟨_, stepState_of_decode hcs, ?_⟩
    rw [stepInstruction_of_decode hcs, if_neg (by simp [State.decoded, Event.isBounds]),
      stepInstruction_of_execute (s := s.decoded) rfl]
  | execute =>
    obtain ⟨t, ht⟩ := stepState_next c s
    refine ⟨t, ht, ?_⟩
    rw [stepInstruction_of_execute hcs, ← stepState_of_execute hcs, ht, if_pos (.inl rfl)]

/-- Settles O13: the default configuration's case of O14. -/
theorem stepRunsDecoded : Obligations.StepRunsDecoded := by
  intro s w i hcs hw hi
  obtain ⟨hrun, hstep⟩ := instructionRunsUnderAnyConfig
  exact (hstep s).trans (hrun defaultConfig s w i hcs hw hi)

/-- Settles O16: what is left of the instruction ends in the Execute of the decoded fields. -/
theorem stepFinishesInstruction : Obligations.StepFinishesInstruction := by
  refine fun s i => ⟨fun hcs hi => ?decode, fun hcs hi => ?execute⟩
  case decode =>
    calc step s
        = executeTransition defaultConfig s.decoded := stepInstruction_of_decode hcs
      _ = exec i s.decoded := executeTransition_of_ok hi
  case execute =>
    calc step s
        = executeTransition defaultConfig s := stepInstruction_of_execute hcs
      _ = exec i s := executeTransition_of_ok hi

end Sys2Proof.Machine
end

section
/-! PROOF. LDI, MOV, IN and OUT (R130 to R133): the effect each has, and from it what each leaves unchanged (R118). -/

namespace Sys2Proof.Machine

/-! ## Execute -/

theorem exec_ldi_of_lt {d : Byte} (hd : d.toNat < Config.nreg) (k : Byte) (s : State) :
    exec (.ldi d k) s = .next ((Effect.loaded ⟨d.toNat, hd⟩ k).apply s) :=
  withReg_of_lt .first s _ hd

theorem exec_mov_of_lt {d r : Byte} (hd : d.toNat < Config.nreg) (hr : r.toNat < Config.nreg) (s : State) :
    exec (.mov d r) s = .next ((Effect.loaded ⟨d.toNat, hd⟩ (s.readReg ⟨r.toNat, hr⟩)).apply s) :=
  (withReg_of_lt .first s _ hd).trans (withReg_of_lt .second s _ hr)

/-- Settles O25: the operand names a register or not. -/
theorem ldiEffect : Obligations.LdiEffect := fun _ k s =>
  ⟨rfl, fun hd => exec_ldi_of_lt hd k s, fun hd => withReg_of_ge .first s _ (Nat.not_lt.mpr hd)⟩

/-- Settles O26: the second operand is looked at only where the first names a register (R219). -/
theorem movEffect : Obligations.MovEffect := by
  refine fun d r s => ⟨rfl, fun hd hr => exec_mov_of_lt hd hr s, fun hd => ?first, fun hd hr => ?second⟩
  case first => exact withReg_of_ge .first s _ (Nat.not_lt.mpr hd)
  case second => exact (withReg_of_lt .first s _ hd).trans (withReg_of_ge .second s _ (Nat.not_lt.mpr hr))

/-- Settles O27: the operand names a register or not; the address exists in either case (R52). -/
theorem inEffect : Obligations.InEffect := fun _ a s =>
  ⟨rfl, fun hd => exec_in_of_lt a hd s, fun hd => withReg_of_ge .first s _ (Nat.not_lt.mpr hd)⟩

/-- Settles O28: the memory after is the one write, which keeps the canonical form. -/
theorem outEffect : Obligations.OutEffect := by
  refine fun a r s hwf => ⟨rfl, fun hr => ?stored, fun hr => ?violated⟩
  case stored =>
    exact ⟨_, exec_out_of_lt a hr s, (Effect.stored a (s.readReg ⟨r.toNat, hr⟩)).apply_wf s hwf,
      Memory.read_write hwf (dataAddress a) _⟩
  case violated => exact withReg_of_ge .second s _ (Nat.not_lt.mpr hr)

/-! ## What Execute leaves unchanged -/

/-- No effect writes a special register but the program counter (R113). -/
theorem Effect.sameSpecials (e : Effect) (s : State) : SameSpecials s (e.apply s) :=
  ⟨e.apply_sr s, e.apply_ir s, e.apply_mar s, e.apply_opcode s, e.apply_operand1 s, e.apply_operand2 s, e.apply_pm s⟩

theorem Effect.readReg_loaded_of_ne (s : State) {i j : Fin Config.nreg} (v : Byte) (h : j ≠ i) :
    ((Effect.loaded i v).apply s).readReg j = s.readReg j :=
  (State.readReg_writeReg s i j v).trans (if_neg h)

theorem Effect.read_stored_of_ne {s : State} (hwf : Memory.wf s.dm = true) {a : Byte} (v : Byte) {x : Nat}
    (h : x ≠ dataAddress a) : Memory.read ((Effect.stored a v).apply s).dm x = Memory.read s.dm x :=
  (Memory.read_write hwf (dataAddress a) v x).trans (if_neg h)

/-- LDI, MOV and IN load their destination, or an operand names no register (R130 to R132, R214). -/
theorem exec_registerWriter_cases {i : Instr} {d : Byte}
    (hi : (∃ k, i = .ldi d k) ∨ (∃ r, i = .mov d r) ∨ (∃ a, i = .in_ d a)) (s : State) :
    (∃ (hd : d.toNat < Config.nreg) (v : Byte), exec i s = .next ((Effect.loaded ⟨d.toNat, hd⟩ v).apply s)) ∨
    (∃ n v, exec i s = .next ((Effect.violated n v).apply s)) := by
  cases hwf : WellFormed i with
  | false =>
    obtain ⟨n, v, -, -, h⟩ := exec_of_not_wellFormed hwf
    exact .inr ⟨n, v, h s⟩
  | true =>
    obtain ⟨k, rfl⟩ | ⟨r, rfl⟩ | ⟨a, rfl⟩ := hi
    · exact .inl ⟨_, k, exec_ldi_of_lt (of_decide_eq_true hwf) k s⟩
    · obtain ⟨hd, hr⟩ : d.toNat < Config.nreg ∧ r.toNat < Config.nreg := by
        simpa [WellFormed, isRegIndex] using hwf
      exact .inl ⟨hd, _, exec_mov_of_lt hd hr s⟩
    · exact .inl ⟨_, _, exec_in_of_lt a (of_decide_eq_true hwf) s⟩

/-- Settles O40: a load keeps the registers beside its destination, a BoundsViolation keeps all. -/
theorem frameOfRegisterWriters : Obligations.FrameOfRegisterWriters := by
  intro i d s t hi h
  obtain ⟨hd, v, h'⟩ | ⟨n, v, h'⟩ := exec_registerWriter_cases hi s <;> cases h'.symm.trans h
  · exact ⟨fun j hj => Effect.readReg_loaded_of_ne s v (Fin.ne_of_val_ne hj), rfl, Effect.sameSpecials _ s, fun _ => rfl⟩
  · exact ⟨fun _ _ => rfl, rfl, Effect.sameSpecials _ s, fun _ => rfl⟩

/-- Settles O41: a store keeps every byte at another address, a BoundsViolation keeps all. -/
theorem frameOfOut : Obligations.FrameOfOut := by
  intro a r s t hwf h
  by_cases hr : r.toNat < Config.nreg
  · cases (exec_out_of_lt a hr s).symm.trans h
    exact ⟨fun _ => rfl, rfl, Effect.sameSpecials _ s, fun _ hx => Effect.read_stored_of_ne hwf _ hx⟩
  · cases (withReg_of_ge .second s _ hr).symm.trans h
    exact ⟨fun _ => rfl, rfl, (Effect.violated .second r).sameSpecials s, fun _ _ => rfl⟩

end Sys2Proof.Machine
end

section
/-! PROOF. NOP and JMP (R140, R141), and the frame of every instruction that writes neither a register nor a data byte
(R118, R150). -/

namespace Sys2Proof.Machine

/-! ## The whole instruction cycle of an encoded instruction -/

theorem step_of_encode {i : Instr} {s : State} (hcs : s.cs = .fetch) (hw : s.pm[s.pc.toNat]? = some (encode i)) :
    step s = exec i (s.fetched (encode i)).decoded :=
  stepRunsDecoded s (encode i) i hcs hw (decode_encode i)

/-- What Fetch and Decode of a word leave to Execute (R111, R112): the fields are those the word was packed from. -/
theorem decoded_fetched_packWord (s : State) (op a b : Byte) :
    (s.fetched (packWord op a b)).decoded = { s with
      pc := s.pc + 1
      mar := s.pc
      ir := packWord op a b
      opcode := op
      operand1 := a
      operand2 := b
      cs := .execute
      event := .none } := by
  simp [State.decoded, State.fetched]

/-! ## Execute -/

theorem exec_of_mnemonic_nop {i : Instr} (h : i.mnemonic = .NOP) (s : State) :
    exec i s = .next (Effect.completed.apply s) := by
  rw [← i.make_parts, h]
  rfl

theorem exec_of_mnemonic_jmp {i : Instr} (h : i.mnemonic = .JMP) (s : State) :
    exec i s = .next ((Effect.jumped i.operand1).apply s) := by
  rw [← i.make_parts, h]
  rfl

/-- Settles O23: Execute ends what Fetch and Decode prepared, and so returns the cycle state to the Fetch it began in. -/
theorem nopEffect : Obligations.NopEffect := by
  refine fun x y s => ⟨rfl, exec_of_mnemonic_nop rfl s, fun hcs hw => ?cycle⟩
  case cycle =>
    calc step s
        = exec (.nop x y) (s.fetched (packWord 0x00 x y)).decoded := step_of_encode hcs hw
      _ = .next (Effect.completed.apply (s.fetched (packWord 0x00 x y)).decoded) := exec_of_mnemonic_nop rfl _
      _ = _ := by rw [decoded_fetched_packWord, hcs]; rfl

/-- JMP's whole instruction cycle: its target replaces the index Fetch advanced to. -/
theorem step_jmp {k y : Byte} {s : State} (hcs : s.cs = .fetch)
    (hw : s.pm[s.pc.toNat]? = some (packWord 0x01 k y)) :
    step s = .next { s with
      pc := k
      mar := s.pc
      ir := packWord 0x01 k y
      opcode := 0x01
      operand1 := k
      operand2 := y
      event := .none } := by
  calc step s
      = exec (.jmp k y) (s.fetched (packWord 0x01 k y)).decoded := step_of_encode hcs hw
    _ = .next ((Effect.jumped k).apply (s.fetched (packWord 0x01 k y)).decoded) := exec_of_mnemonic_jmp rfl _
    _ = _ := by rw [decoded_fetched_packWord, hcs]; rfl

/-- Settles O24: after the cycle the machine is at a Fetch of the target, which is populated or not. -/
theorem jmpEffect : Obligations.JmpEffect := by
  refine fun k y s => ⟨rfl, exec_of_mnemonic_jmp rfl s, fun hcs hw => ?cycle⟩
  case cycle =>
    refine ⟨_, step_jmp hcs hw, rfl, fun w hk => ?populated, fun hlen => ?unpopulated⟩
    case populated => exact ⟨_, stepState_of_fetch_some hcs hk, rfl, rfl, rfl, rfl⟩
    case unpopulated => exact ⟨_, stepState_of_fetch_none hcs (List.getElem?_eq_none hlen), .raise _ _, rfl⟩

/-! ## What Execute leaves unchanged -/

/-- Settles O42: the three effects beside load, store and violation; of these only JMP's writes the program counter. -/
theorem frameOfTheOthers : Obligations.FrameOfTheOthers := by
  intro i s t hi h
  obtain hnop | hjmp | hunimplemented := hi
  · cases (exec_of_mnemonic_nop hnop s).symm.trans h
    exact ⟨fun _ => rfl, Effect.completed.sameSpecials s, fun _ => rfl, fun _ => rfl⟩
  · cases (exec_of_mnemonic_jmp hjmp s).symm.trans h
    exact ⟨fun _ => rfl, (Effect.jumped i.operand1).sameSpecials s, fun _ => rfl, fun hne => absurd hjmp hne⟩
  · cases (exec_of_not_implemented hunimplemented s).symm.trans h
    exact ⟨fun _ => rfl, Effect.unimplemented.sameSpecials s, fun _ => rfl, fun _ => rfl⟩

end Sys2Proof.Machine
end

section
/-! PROOF. The declared-but-unimplemented instructions (R150 to R179). All of them, and every further mnemonic a
configuration declares, end Execute in the one effect Unimplemented, so that their cycles differ in the word alone. -/

namespace Sys2Proof.Machine

/-- A further declared mnemonic has no constructor of `Instr`; its Execute is that of an unimplemented one (R150). -/
theorem executeTransition_of_further {c : Config} (hok : Config.Ok c) {f : FurtherMnemonic} (hf : f ∈ c.further)
    {s : State} (hop : s.opcode = f.value) : executeTransition c s = .next (Effect.unimplemented.apply s) := by
  rw [executeTransition, hop, classOf_further hok hf]
  rfl

/-- What Unimplemented leaves of a state that Fetch and Decode of a word prepared (R111, R112, R150). -/
theorem Effect.unimplemented_decoded_fetched_packWord {s : State} (hcs : s.cs = .fetch) (op a b : Byte) :
    Effect.unimplemented.apply (s.fetched (packWord op a b)).decoded = { s with
      pc := s.pc + 1
      mar := s.pc
      ir := packWord op a b
      opcode := op
      operand1 := a
      operand2 := b
      event := .unimplemented op
      raised := recordEvent (.unimplemented op) s.raised } := by
  rw [decoded_fetched_packWord, hcs]
  rfl

/-- Settles O39: a mnemonic of the table and a further one reach Unimplemented by different classes of the opcode. -/
theorem unimplementedInstructionCycle : Obligations.UnimplementedInstructionCycle := by
  refine ⟨fun i s hi hcs hw => ?table, fun c f a b s hok hf hcs hw => ?further⟩
  case table =>
    calc step s
        = exec i (s.fetched (encode i)).decoded := step_of_encode hcs hw
      _ = .next (Effect.unimplemented.apply (s.fetched (encode i)).decoded) := exec_of_not_implemented hi _
      _ = _ := congrArg _ (Effect.unimplemented_decoded_fetched_packWord hcs _ _ _)
  case further =>
    have hop : (s.fetched (f.encode a b)).decoded.opcode = f.value := opcodeField_packWord f.value a b
    calc stepInstruction c s
        = executeTransition c (s.fetched (f.encode a b)).decoded := stepInstruction_of_fetch hcs hw
      _ = .next (Effect.unimplemented.apply (s.fetched (f.encode a b)).decoded) :=
          executeTransition_of_further hok hf hop
      _ = _ := congrArg _ (Effect.unimplemented_decoded_fetched_packWord hcs _ _ _)

/-! ## The families -/

/-- Encoding, Execute and cycle of an instruction given as its mnemonic and its fields; each family below names the
mnemonics, which fix constructor and opcode value. -/
theorem declaredOnly_make (m : Mnemonic) (hm : m.implemented = false) : DeclaredOnly (Instr.make m) (opc m) := by
  intro a b s
  have hi : (Instr.make m a b).mnemonic.implemented = false := by rw [Instr.mnemonic_make, hm]
  have hword : encode (Instr.make m a b) = packWord (opc m) a b := by simp [encode, encodeWith, defaultConfig]
  refine ⟨hword, exec_of_not_implemented hi s, fun hcs hw => ?cycle⟩
  case cycle =>
    have hstep := unimplementedInstructionCycle.1 (Instr.make m a b) s hi hcs (hw.trans (congrArg some hword.symm))
    rwa [hword, Instr.mnemonic_make, Instr.operand1_make, Instr.operand2_make] at hstep

/-- Settles O32. -/
theorem memoryFamily : Obligations.MemoryFamily :=
  ⟨declaredOnly_make .STS rfl, declaredOnly_make .LDS rfl⟩

/-- Settles O33. -/
theorem logicalFamily : Obligations.LogicalFamily :=
  ⟨declaredOnly_make .AND rfl, declaredOnly_make .ANDI rfl, declaredOnly_make .OR rfl, declaredOnly_make .ORI rfl,
    declaredOnly_make .XOR rfl, declaredOnly_make .XORI rfl, declaredOnly_make .CLR rfl⟩

/-- Settles O34. -/
theorem arithmeticFamily : Obligations.ArithmeticFamily :=
  ⟨declaredOnly_make .ADD rfl, declaredOnly_make .ADDI rfl, declaredOnly_make .SUB rfl,
    declaredOnly_make .SUBI rfl, declaredOnly_make .INC rfl, declaredOnly_make .DEC rfl⟩

/-- Settles O35. -/
theorem compareFamily : Obligations.CompareFamily :=
  ⟨declaredOnly_make .CP rfl, declaredOnly_make .CPI rfl⟩

/-- Settles O36: a branch that is not implemented is not taken. -/
theorem branchFamily : Obligations.BranchFamily :=
  ⟨declaredOnly_make .BREQ rfl, declaredOnly_make .BRNE rfl, declaredOnly_make .BRGE rfl,
    declaredOnly_make .BRGT rfl, declaredOnly_make .BRLE rfl, declaredOnly_make .BRLT rfl⟩

/-- Settles O37: neither a call nor a stack access takes place. -/
theorem callAndStackFamilies : Obligations.CallAndStackFamilies :=
  ⟨declaredOnly_make .CALL rfl, declaredOnly_make .RET rfl, declaredOnly_make .PUSH rfl, declaredOnly_make .POP rfl⟩

/-- Settles O38: the Interrupt bit is part of the status register, which the effect keeps. -/
theorem interruptEnableFamily : Obligations.InterruptEnableFamily :=
  ⟨declaredOnly_make .SEI rfl, declaredOnly_make .CLI rfl⟩

end Sys2Proof.Machine
end

section
/-! PROOF. The host's operations (R190): the write of a data byte (R196), and that every operation keeps the engine's
invariant. -/

namespace Sys2Proof.Machine

/-! ## The write of a data byte -/

section
variable {a : Nat} (v : Byte) (s : State)

theorem writeDataMemory_of_lt (ha : a < Config.dmemSize) :
    writeDataMemory a v s = { s with dm := Memory.write s.dm a v }.quiet := by
  simp [writeDataMemory, State.memWrite, isDataAddress, ha]

theorem writeDataMemory_of_ge (ha : ¬ a < Config.dmemSize) : writeDataMemory a v s = s.raise (.dataAddr a) := by
  simp [writeDataMemory, State.memWrite, isDataAddress, ha]

end

/-- Settles O54: the address exists or not; the memory after is the one write, which keeps the canonical form. -/
theorem hostWrite : Obligations.HostWrite := by
  refine fun a v s hwf => ⟨fun ha => ?written, fun ha => ?violated⟩
  case written =>
    have hlt : a < Config.dmemSize := Nat.lt_succ_of_le ha
    exact ⟨_, writeDataMemory_of_lt v s hlt, Memory.write_wf hwf hlt, Memory.read_write hwf a v⟩
  case violated => exact writeDataMemory_of_ge v s (Nat.not_lt.mpr ha)

/-! ## The engine's invariant -/

/-- Reset leaves the engine in Fetch and keeps the record (R217, R241). -/
theorem Inv.hostReset {s : State} (h : Inv s) : Inv (hostReset s) := by
  obtain ⟨-, -, -, hrecord⟩ := h
  exact ⟨Memory.reset_wf, fun hne => absurd rfl hne, nofun, hrecord.quiet rfl rfl⟩

/-- A host write touches none of the engine's registers, so it may fall between the transitions of an instruction. -/
theorem Inv.writeDataMemory {s : State} (h : Inv s) (a : Nat) (v : Byte) : Inv (writeDataMemory a v s) := by
  obtain ⟨hwf, hfetched, hdecoded, hrecord⟩ := h
  by_cases ha : a < Config.dmemSize
  · rw [writeDataMemory_of_lt v s ha]
    exact ⟨Memory.write_wf hwf ha, hfetched, hdecoded, hrecord.quiet rfl rfl⟩
  · rw [writeDataMemory_of_ge v s ha]
    exact ⟨hwf, hfetched, hdecoded, hrecord.raise nofun⟩

/-- Settles O48: every transition, the reset and the host's write keep the invariant. -/
theorem hostOperationsKeepInv : Obligations.HostOperationsKeepInv := fun _ _ _ _ hi h =>
  perform_induction (R := fun s t => Inv s → Inv t) (fun _ => id) (fun hst htu => htu ∘ hst) Transition.inv
    (fun _ => Inv.hostReset) (fun _ a v hs => hs.writeDataMemory a v) h hi

end Sys2Proof.Machine
end

section
/-! PROOF. The loading of one word (R198): a word placed where the next step fetches is the word it fetches. -/

namespace Sys2Proof.Machine

theorem getElem?_placeWord (words : List Word) (n : Nat) (w : Word) : (placeWord words n w)[n]? = some w := by
  induction n generalizing words with
  | zero => cases words <;> rfl
  | succ n ih =>
    cases words with
    | nil => exact ih []
    | cons _ rest => exact ih rest

/-- A word is given to the loading as a number and comes out as it was. -/
theorem withFetchWord_pm_pc (s : State) (w : Word) : (s.withFetchWord 24 w.toNat).pm[s.pc.toNat]? = some w := by
  have hword : BitVec.ofNat 24 (w.toNat % 2 ^ 24) = w := by
    rw [Nat.mod_eq_of_lt w.isLt, BitVec.ofNat_toNat, BitVec.setWidth_eq]
  calc (s.withFetchWord 24 w.toNat).pm[s.pc.toNat]?
      = some (BitVec.ofNat 24 (w.toNat % 2 ^ 24)) := getElem?_placeWord s.pm s.pc.toNat _
    _ = some w := congrArg some hword

/-- Settles O60: Fetch and Decode of the placed word prepare the state that Execute starts from. -/
theorem placedWordRuns : Obligations.PlacedWordRuns := fun i s =>
  ⟨((s.withFetchWord 24 (encode i).toNat).fetched (encode i)).decoded,
    step_of_encode rfl (withFetchWord_pm_pc s (encode i)), rfl, rfl, rfl, rfl, rfl, rfl, rfl, rfl⟩

end Sys2Proof.Machine
end

section
/-! PROOF. The block as a synchronous circuit (R200): which operation of the host an edge is. -/

namespace Sys2Proof.Machine

/-- An edge that does nothing ends with the event None and changes nothing else. -/
theorem SameMachine.quiet (s : State) : SameMachine s s.quiet :=
  ⟨rfl, rfl, rfl, rfl, rfl, rfl, rfl, rfl, rfl, rfl, rfl⟩

/-- Settles O55: reset wins over the other two controls, and these are looked at together. The model's
function has the plain name. -/
theorem clockEdge_spec : Obligations.ClockEdge := by
  refine fun c p s => ⟨fun hrst => ?reset, fun hrst hstep hwe => ?step, fun hrst hstep hwe => ?write,
    fun hrst hstep hwe => ⟨s.quiet, ?idle, .quiet s⟩, fun hrst hstep hwe => ?refused⟩
  case reset => simp [clockEdge, perform, hrst]
  case step => simp [clockEdge, perform, hrst, hstep, hwe]
  case write => simp [clockEdge, perform, hrst, hstep, hwe]
  case idle => simp [clockEdge, hrst, hstep, hwe]
  case refused => simp [clockEdge, hrst, hstep, hwe]

end Sys2Proof.Machine
end

section
/-! PROOF. The snapshot (R193): what it shows of the state. -/

namespace Sys2Proof.Machine

section
variable (c : Config) (s : State)

theorem length_snapshot_dataMemory : (snapshot c s).dataMemory.length = Config.dmemSize := by
  simp [snapshot]

theorem getElem?_snapshot_dataMemory {a : Nat} (ha : a < Config.dmemSize) :
    (snapshot c s).dataMemory[a]? = some (Memory.read s.dm a) := by
  simp [snapshot, ha]

/-- The three fields shown of the instruction register are the whole of it (R28, R81). -/
theorem packWord_snapshot_ir :
    packWord (snapshot c s).irOpcode (snapshot c s).irOperand1 (snapshot c s).irOperand2 = s.ir :=
  packWord_fields s.ir

end

/-- Reset leaves the opcode value of NOP in the decoded field (R36, R93). -/
theorem opcodeName_reset : opcodeName defaultConfig State.reset.opcode = "NOP" :=
  opcodeName_opc defaultConfig_ok (m := .NOP) rfl

/-- Settles O56: beside the word in `ir` and the data bytes, each field is the piece of state itself. -/
theorem snapshotShows : Obligations.SnapshotShows := by
  refine ⟨fun c s => ?any, fun s => ?default, opcodeName_reset, rfl⟩
  case any =>
    exact ⟨rfl, rfl, rfl, rfl, packWord_snapshot_ir c s, rfl, rfl, rfl, rfl, rfl, fun _ => rfl, rfl, rfl, rfl, rfl,
      rfl, rfl, rfl, length_snapshot_dataMemory c s, fun _ => getElem?_snapshot_dataMemory c s⟩
  case default => exact ⟨rfl, rfl, rfl, rfl, rfl, rfl, rfl, rfl⟩

end Sys2Proof.Machine
end

section
/-! PROOF. The reset of an undeclared opcode (R211, R220): Execute leaves what an explicit reset leaves, and the
event tells the two apart. -/

namespace Sys2Proof.Machine

theorem executeTransition_of_undeclared {c : Config} {s : State} (h : Undeclared c s.opcode) :
    executeTransition c s = .next (s.resetAll.raise (.unknownOpcode s.opcode)) := by
  rw [executeTransition, classOf_undeclared h]
  rfl

/-- The machine's own reset and the host's differ in the event record alone (R191, R211). -/
theorem sameMachine_hostReset_resetAll_raise (s : State) (e : Event) : SameMachine (hostReset s) (s.resetAll.raise e) :=
  ⟨rfl, rfl, rfl, rfl, rfl, rfl, rfl, rfl, rfl, rfl, rfl⟩

/-- A reset leaves the launch state of the program in place (R244). -/
theorem resetAll_raise_eq_launch (s : State) (e : Event) :
    s.resetAll.raise e = { State.launch s.pm with event := e, raised := recordEvent e s.raised } := rfl

/-- Settles O10: Decode copies the fields whatever the opcode; only Execute looks at its class. -/
theorem unknownOpcodeResets : Obligations.UnknownOpcodeResets := by
  refine fun c => ⟨fun s hcs hu => ?execute, fun s hcs => ?decode⟩
  case execute =>
    refine ⟨_, (stepState_of_execute hcs).trans (executeTransition_of_undeclared hu),
      sameMachine_hostReset_resetAll_raise s _, ?launch, rfl, rfl⟩
    rw [resetAll_raise_eq_launch]
    exact ⟨rfl, rfl, rfl, rfl, rfl, rfl, rfl, rfl, rfl, rfl, rfl⟩
  case decode => exact ⟨s.decoded, stepState_of_decode hcs, rfl, rfl, rfl, rfl, rfl, rfl, rfl, rfl, rfl⟩

/-- Settles O19: Fetch and Decode touch neither program memory nor the record; the reset erases what they did write. -/
theorem undeclaredInstructionCycle : Obligations.UndeclaredInstructionCycle := by
  intro c s w hcs hw hu
  calc stepInstruction c s
      = executeTransition c (s.fetched w).decoded := stepInstruction_of_fetch hcs hw
    _ = .next ((s.fetched w).decoded.resetAll.raise (.unknownOpcode (opcodeField w))) :=
        executeTransition_of_undeclared hu
    _ = _ := congrArg _ (resetAll_raise_eq_launch (s.fetched w).decoded _)

end Sys2Proof.Machine
end

section
/-! PROOF. The BoundsViolations of the core (R213, R214, R216). `HoldCause` names their two causes; a cause lies in
fields that neither the violation itself nor a host write changes, so the core holds until a reset. -/

namespace Sys2Proof.Machine

/-! ## Which operand Execute reports -/

/-- An instruction outside the operand ranges has an operand to report (R83, R214). -/
theorem exists_failingOperand {i : Instr} (h : WellFormed i = false) : ∃ n v, FailingOperand i n v := by
  cases i
  case ldi d k => exact ⟨.first, d, rfl, rfl, reg_bound (of_decide_eq_false h)⟩
  case in_ d a => exact ⟨.first, d, rfl, rfl, reg_bound (of_decide_eq_false h)⟩
  case out a r => exact ⟨.second, r, rfl, rfl, reg_bound (of_decide_eq_false h)⟩
  case mov d r =>
    by_cases hd : d.toNat < Config.nreg
    · have hr : ¬ r.toNat < Config.nreg := by simpa [WellFormed, isRegIndex, hd] using h
      exact ⟨.second, r, .inr ⟨rfl, rfl, Nat.le_of_lt_succ hd, reg_bound hr⟩⟩
    · exact ⟨.first, d, .inl ⟨rfl, rfl, reg_bound hd⟩⟩
  all_goals cases h

/-- The operand to report is reported in every state, and nothing else happens (R214, R219). -/
theorem exec_of_failingOperand {i : Instr} {n : OperandNo} {v : Byte} (h : FailingOperand i n v) (s : State) :
    exec i s = .next (s.raise (.regIndex n v)) := by
  cases i
  case ldi d k =>
    obtain ⟨rfl, rfl, hd⟩ := h
    exact withReg_of_ge .first s _ (Nat.not_lt.mpr hd)
  case in_ d a =>
    obtain ⟨rfl, rfl, hd⟩ := h
    exact withReg_of_ge .first s _ (Nat.not_lt.mpr hd)
  case out a r =>
    obtain ⟨rfl, rfl, hr⟩ := h
    exact withReg_of_ge .second s _ (Nat.not_lt.mpr hr)
  case mov d r =>
    obtain ⟨rfl, rfl, hd⟩ | ⟨rfl, rfl, hd, hr⟩ := h
    · exact withReg_of_ge .first s _ (Nat.not_lt.mpr hd)
    · exact (withReg_of_lt .first s _ (Nat.lt_succ_of_le hd)).trans (withReg_of_ge .second s _ (Nat.not_lt.mpr hr))
  all_goals exact h.elim

/-- Execute of an instruction ends in a BoundsViolation for no other reason. -/
theorem failingOperand_of_isBounds {i : Instr} {s t : State} (h : exec i s = .next t) (hb : t.event.isBounds = true) :
    ∃ n v, FailingOperand i n v ∧ t = s.raise (.regIndex n v) := by
  obtain ⟨_, _, _, h', -, -⟩ | ⟨_, _, -, hwf⟩ | ⟨h', -⟩ := exec_cases i s
  · cases h'.symm.trans h
    cases hb
  · obtain ⟨n, v, hf⟩ := exists_failingOperand hwf
    cases (exec_of_failingOperand hf s).symm.trans h
    exact ⟨n, v, hf, rfl⟩
  · cases h'.symm.trans h
    cases hb

theorem exec_regIndex_iff (i : Instr) (s : State) (n : OperandNo) (v : Byte) :
    (∃ t, exec i s = .next t ∧ t.event = .regIndex n v) ↔ FailingOperand i n v := by
  constructor
  · rintro ⟨t, h, he⟩
    obtain ⟨n', v', hf, rfl⟩ := failingOperand_of_isBounds h (he ▸ rfl)
    cases he
    exact hf
  · exact fun hf => ⟨_, exec_of_failingOperand hf s, rfl⟩

/-! ## Why the core holds -/

/-- The causes of a BoundsViolation of the core, each with its event: a Fetch at an unpopulated index (R213), the
Execute of an instruction with an operand that names no register (R214). -/
inductive HoldCause (c : Config) (s : State) : Event → Prop where
  | beyond : s.cs = .fetch → s.progRead s.pc = none → HoldCause c s (.progFetch s.pc)
  | operand {i : Instr} {n : OperandNo} {v : Byte} : s.cs = .execute →
      decodeFields c s.opcode s.operand1 s.operand2 = .ok i → FailingOperand i n v → HoldCause c s (.regIndex n v)

section
variable {c : Config} {s t : State} {e : Event}

theorem HoldCause.holds (h : HoldCause c s e) : Holds c s e := by
  cases h with
  | beyond hcs hw => exact ⟨rfl, stepState_of_fetch_none hcs hw⟩
  | operand hcs hi hf =>
    refine ⟨rfl, ?_⟩
    calc stepState c s
        = executeTransition c s := stepState_of_execute hcs
      _ = exec _ s := executeTransition_of_ok hi
      _ = .next (s.raise _) := exec_of_failingOperand hf s

/-- A BoundsViolation has one of the two causes, and changes nothing (R216). -/
theorem holdCause_of_isBounds (h : stepState c s = .next t) (hb : t.event.isBounds = true) :
    HoldCause c s t.event ∧ t = s.raise t.event := by
  cases hcs : s.cs with
  | fetch =>
    rw [stepState_of_fetch hcs] at h
    obtain ⟨w, -, h'⟩ | ⟨hw, h'⟩ := fetchTransition_cases s <;> cases h'.symm.trans h
    · cases hb
    · exact ⟨.beyond hcs hw, rfl⟩
  | decode =>
    cases (stepState_of_decode hcs).symm.trans h
    cases hb
  | execute =>
    rw [stepState_of_execute hcs] at h
    obtain ⟨i, hi, h'⟩ | ⟨_, -, -, -, h'⟩ | ⟨-, h'⟩ := executeTransition_cases c s
    · obtain ⟨n, v, hf, rfl⟩ := failingOperand_of_isBounds (h'.symm.trans h) hb
      exact ⟨.operand hcs hi hf, rfl⟩
    · cases h'.symm.trans h
      cases hb
    · cases h'.symm.trans h
      cases hb

/-- Neither data memory nor the event record plays a part in a cause. -/
theorem HoldCause.with_data (h : HoldCause c s e) (dm : Memory) (event : Event) (raised : List Event) :
    HoldCause c { s with dm := dm, event := event, raised := raised } e := by
  cases h with
  | beyond hcs hw => exact .beyond (s := { s with dm := dm, event := event, raised := raised }) hcs hw
  | operand hcs hi hf => exact .operand hcs hi hf

theorem HoldCause.raise (h : HoldCause c s e) (e' : Event) : HoldCause c (s.raise e') e := h.with_data _ _ _

theorem HoldCause.writeDataMemory (h : HoldCause c s e) (a : Nat) (v : Byte) :
    HoldCause c (writeDataMemory a v s) e := by
  obtain hw | hw := writeDataMemory_cases s a v <;> rw [hw] <;> exact h.with_data _ _ _

/-- A step of a holding core is its one failing transition (R116). -/
theorem Holds.stepInstruction (h : Holds c s e) : stepInstruction c s = .next (s.raise e) := by
  obtain ⟨hb, hs⟩ := h
  obtain ⟨t, ht, hloop⟩ := stepInstructionLoop c s
  cases hs.symm.trans ht
  rw [hloop, if_pos (.inr hb)]

/-- After a BoundsViolation the core is in the state where its event is the last one, and stays in it (R216). -/
theorem HoldCause.stepState_raise (h : HoldCause c s e) : stepState c (s.raise e) = .next (s.raise e) := by
  obtain ⟨-, hs⟩ := (h.raise e).holds
  rwa [State.raise_raise] at hs

theorem HoldCause.stepInstruction_raise (h : HoldCause c s e) : stepInstruction c (s.raise e) = .next (s.raise e) := by
  have hs := (h.raise e).holds.stepInstruction
  rwa [State.raise_raise] at hs

end

/-- Settles O20: the Fetch of an index that program memory does not reach. -/
theorem stepBeyondProgram : Obligations.StepBeyondProgram := fun _ hcs hlen =>
  stepInstruction_of_fetch_none hcs (List.getElem?_eq_none hlen)

/-- Settles O30: instructions by `exec_regIndex_iff`; the event of a transition has a cause, and the cause stays. -/
theorem registerIndexViolation : Obligations.RegisterIndexViolation := by
  refine ⟨fun i s n v => ⟨exec_regIndex_iff i s n v, fun hf => ?reported⟩, fun c s t n v hcs h he => ?held⟩
  case reported => exact ⟨_, exec_of_failingOperand hf s, rfl, .raise s _⟩
  case held =>
    obtain ⟨hcause, heq⟩ := holdCause_of_isBounds h (he ▸ rfl)
    rw [heq]
    exact ⟨.raise s _, hcs, hcause.stepState_raise⟩

/-- Settles O21: the cause is still there after the violation and after a host write; a reset puts the core to Fetch at
word 0. -/
theorem holdUntilReset : Obligations.HoldUntilReset := by
  intro c s t h hb
  obtain ⟨hcause, heq⟩ := holdCause_of_isBounds h hb
  generalize t.event = e at hcause heq
  subst heq
  refine ⟨.raise s e, hcause.stepState_raise, hcause.stepInstruction_raise, fun a v => ?write, fun w hw => ?reset⟩
  case write =>
    obtain ⟨-, hs⟩ := ((hcause.raise e).writeDataMemory a v).holds
    exact ⟨_, hs, rfl, .raise _ e⟩
  case reset =>
    exact ⟨(hostReset (s.raise e)).fetched w, stepState_of_fetch_some rfl hw, rfl, rfl, rfl⟩

end Sys2Proof.Machine
end

section
/-! PROOF. The order of the checks in Execute (R85, R219): the class of the opcode first, the operands after it. -/

namespace Sys2Proof.Machine

theorem stepState_of_opc {c : Config} (hok : Config.Ok c) {s : State} (hcs : s.cs = .execute) {m : Mnemonic}
    (hd : c.declared m = true) (hop : s.opcode = c.opc m) :
    stepState c s = exec (Instr.make m s.operand1 s.operand2) s := by
  rw [stepState_of_execute hcs]
  exact executeTransition_of_ok (hop ▸ decodeFields_opc hok hd _ _)

/-- Settles O31: the class of the opcode gives the first three answers, the first failing operand of MOV the others. -/
theorem checkOrder : Obligations.CheckOrder := by
  intro c s hok hcs
  have ⟨hnamed, _⟩ := hok
  have hmov : c.declared .MOV = true := hnamed .MOV rfl
  refine ⟨fun hu => ?undeclared, fun m hd hm hop => ?table, fun f hf hop => ?further, fun hop h1 => ?first,
    fun hop h1 h2 => ?second⟩
  case undeclared => exact ⟨_, (stepState_of_execute hcs).trans (executeTransition_of_undeclared hu), rfl⟩
  case table =>
    have hi : (Instr.make m s.operand1 s.operand2).mnemonic.implemented = false := by rw [Instr.mnemonic_make, hm]
    exact ⟨_, (stepState_of_opc hok hcs hd hop).trans (exec_of_not_implemented hi s), rfl⟩
  case further => exact ⟨_, (stepState_of_execute hcs).trans (executeTransition_of_further hok hf hop), rfl⟩
  case first =>
    have hf : FailingOperand (.mov s.operand1 s.operand2) .first s.operand1 := .inl ⟨rfl, rfl, h1⟩
    exact ⟨_, (stepState_of_opc hok hcs hmov hop).trans (exec_of_failingOperand hf s), rfl⟩
  case second =>
    have hf : FailingOperand (.mov s.operand1 s.operand2) .second s.operand2 :=
      .inr ⟨rfl, rfl, Nat.le_of_lt_succ h1, h2⟩
    exact ⟨_, (stepState_of_opc hok hcs hmov hop).trans (exec_of_failingOperand hf s), rfl⟩

end Sys2Proof.Machine
end

section
/-! PROOF. The record of events (R217): no operation of the host takes an event out of it, and each puts in the one it
returns. -/

namespace Sys2Proof.Machine

/-! ## What one operation does to the record -/

/-- From `s` to `t` no event was returned and the record is as before, or one was returned and is recorded. -/
def Records (s t : State) : Prop :=
  (t.event = .none ∧ t.raised = s.raised) ∨ t.raised = recordEvent t.event s.raised

section
variable {s t : State}

theorem Records.raised_subset (h : Records s t) : s.raised ⊆ t.raised := by
  obtain ⟨-, h⟩ | h := h <;> rw [h]
  · exact List.Subset.refl _
  · exact fun _ hmem => mem_recordEvent.mpr (.inr hmem)

theorem Records.event_mem_raised (h : Records s t) : t.event = .none ∨ t.event ∈ t.raised := by
  obtain ⟨hnone, -⟩ | h := h
  · exact .inl hnone
  · exact .inr (h ▸ mem_recordEvent.mpr (.inl rfl))

theorem Effect.records (e : Effect) (s : State) : Records s (e.apply s) := by
  cases e with
  | completed | jumped | loaded | stored => exact .inl ⟨rfl, rfl⟩
  | violated | unimplemented => exact .inr rfl

theorem Transition.records (h : Transition s t) : Records s t := by
  cases h with
  | fetched | decoded => exact .inl ⟨rfl, rfl⟩
  | beyond | reset => exact .inr rfl
  | executed e => exact e.records s

end

theorem hostReset_records (s : State) : Records s (hostReset s) := .inl ⟨rfl, rfl⟩

theorem writeDataMemory_records (s : State) (a : Nat) (v : Byte) : Records s (writeDataMemory a v s) := by
  obtain h | h := writeDataMemory_cases s a v <;> rw [h]
  · exact .inl ⟨rfl, rfl⟩
  · exact .inr rfl

/-! ## What every operation of the host does -/

theorem perform_raised_subset {c : Config} {op : HostOp} {s t : State} (h : perform c op s = .next t) :
    s.raised ⊆ t.raised :=
  perform_induction (R := fun s t => s.raised ⊆ t.raised) (fun _ => List.Subset.refl _) List.Subset.trans
    (fun h => h.records.raised_subset) (fun s => (hostReset_records s).raised_subset)
    (fun s a v => (writeDataMemory_records s a v).raised_subset) h

/-- A snapshot returns no event and leaves the one before. -/
theorem perform_event_mem_raised {c : Config} {op : HostOp} {s t : State} (h : perform c op s = .next t)
    (hop : op ≠ .snapshot) : t.event = .none ∨ t.event ∈ t.raised := by
  cases op with
  | snapshot => exact absurd rfl hop
  | stepState => exact (transition_of_stepState h).records.event_mem_raised
  | stepInstruction =>
    obtain ⟨p, -, hlast⟩ := stepInstruction_last_transition h
    exact hlast.records.event_mem_raised
  | reset =>
    cases h
    exact (hostReset_records s).event_mem_raised
  | writeDataMemory a v =>
    cases h
    exact (writeDataMemory_records s a v).event_mem_raised

/-- Settles O52: the last transition of a step decides its event, and all of them keep the record. -/
theorem eventRecordIsSticky : Obligations.EventRecordIsSticky := fun _ _ _ _ h =>
  ⟨fun _ hmem => perform_raised_subset h hmem, fun hop hne => (perform_event_mem_raised h hop).resolve_left hne⟩

end Sys2Proof.Machine
end

section
/-! PROOF. Three transitions make an instruction (R116, R250), and what a reset leaves (R240, R241). -/

namespace Sys2Proof.Machine

/-- Settles O18: Fetch and Decode cannot fail at a populated index, and Execute is the last transition. -/
theorem threeTransitions : Obligations.ThreeTransitions := fun _ s w hcs hw =>
  ⟨s.fetched w, (s.fetched w).decoded, stepState_of_fetch_some hcs hw, rfl, stepState_of_decode rfl, rfl,
    (stepInstruction_of_fetch hcs hw).trans (stepState_of_execute rfl).symm⟩

theorem readReg_hostReset (s : State) (j : Fin Config.nreg) : (hostReset s).readReg j = 0x00 := by
  simp [State.readReg]

/-- The event record that a reset keeps is no part of the machine (R217, R241). -/
theorem SameMachine.hostReset {s s' : State} (h : s'.pm = s.pm) : SameMachine (hostReset s) (hostReset s') :=
  ⟨rfl, rfl, rfl, rfl, rfl, rfl, rfl, rfl, rfl, rfl, h⟩

/-- Settles O53: a reset builds every field but program memory and the record from constants. -/
theorem resetValues : Obligations.ResetValues := fun _ s =>
  ⟨readReg_hostReset s, fun _ => rfl, rfl, rfl, rfl, rfl, rfl, rfl, rfl, rfl, rfl, rfl, fun _ => .hostReset,
    fun w hw => ⟨(hostReset s).fetched w, stepState_of_fetch_some rfl hw, rfl⟩⟩

end Sys2Proof.Machine
end

section
/-! PROOF. Software that keeps R246's duties: `Guarded` holds at its launch and every transition keeps it, because no
transition of a guarded state raises an event and each Execute leaves the program counter inside the program. -/

namespace Sys2Proof.Machine

/-! ## What the duties say -/

theorem programOk_iff {prog : List Word} : programOk prog = true ↔ 1 ≤ prog.length ∧ prog.length ≤ 256 := by
  simp [programOk]

/-- A dutiful word is a jump inside the program, or another implemented instruction with register operands that name
registers, and then not the last word. -/
theorem dutifulWord_cases {c : Config} {len index : Nat} {w : Word} (h : dutifulWord c len index w = true) :
    (∃ target x, decodeWith c w = .ok (.jmp target x) ∧ target.toNat < len) ∨
    (∃ i, decodeWith c w = .ok i ∧ (∀ target x, i ≠ .jmp target x) ∧ i.mnemonic.implemented = true ∧
      WellFormed i = true ∧ index + 1 < len) := by
  unfold dutifulWord at h
  split at h
  next target x hi => exact .inl ⟨target, x, hi, of_decide_eq_true h⟩
  next i hnot hi =>
    obtain ⟨⟨himpl, hwf⟩, hindex⟩ : (i.mnemonic.implemented = true ∧ WellFormed i = true) ∧ index + 1 < len := by
      simpa using h
    exact .inr ⟨i, hi, hnot, himpl, hwf, hindex⟩
  next => cases h

/-! ## Execute of a dutiful word -/

/-- An implemented instruction within the operand ranges ends normally, and but for JMP goes on after its word (R113). -/
theorem exec_of_implemented {i : Instr} (himpl : i.mnemonic.implemented = true) (hwf : WellFormed i = true)
    (hjmp : ∀ target x, i ≠ .jmp target x) (s : State) :
    ∃ t, exec i s = .next t ∧ t.event = .none ∧ t.raised = s.raised ∧ t.pc = s.pc := by
  obtain ⟨regs, pc, dm, h, -, hpc⟩ | ⟨_, _, -, hbad⟩ | ⟨-, hbad⟩ := exec_cases i s
  · exact ⟨_, h, rfl, rfl, hpc.resolve_right fun ⟨x, hi⟩ => hjmp pc x hi⟩
  · simp [hwf] at hbad
  · simp [himpl] at hbad

section
variable {c : Config} {s t : State}

/-- The decoder's answer for the instruction register is what Execute runs (R30, R113). -/
theorem DecodedConsistent.executeTransition_eq (h : DecodedConsistent s) (hcs : s.cs = .execute) {i : Instr}
    (hi : decodeWith c s.ir = .ok i) : executeTransition c s = exec i s := by
  obtain ⟨hop, h1, h2⟩ := h hcs
  refine executeTransition_of_ok ?_
  rw [hop, h1, h2]
  exact hi

/-- A jump goes to its target, and any other instruction to the next word, which is there: both inside the program. -/
theorem Guarded.executeTransition (h : Guarded c s) (hcs : s.cs = .execute) :
    ∃ t, executeTransition c s = .next t ∧ EventFree t ∧ t.pc.toNat < s.pm.length := by
  obtain ⟨⟨hlen, hwords⟩, ⟨-, hraised⟩, hfetched, hdecoded, -⟩ := h
  obtain ⟨hir, hpc⟩ := hfetched (by simp [hcs])
  obtain ⟨target, x, hi, htarget⟩ | ⟨i, hi, hjmp, himpl, hwf, hindex⟩ := dutifulWord_cases (hwords _ _ hir)
  · exact ⟨(s.setPc target).endExecute, hdecoded.executeTransition_eq hcs hi, ⟨rfl, hraised⟩, htarget⟩
  · obtain ⟨t, ht, hevent, hkept, hpc'⟩ := exec_of_implemented himpl hwf hjmp s
    refine ⟨t, (hdecoded.executeTransition_eq hcs hi).trans ht, ⟨hevent, hkept.trans hraised⟩, ?_⟩
    obtain ⟨-, hle⟩ := programOk_iff.mp hlen
    have hnext : (s.mar + 1).toNat = s.mar.toNat + 1 := BitVec.toNat_add_of_lt (hindex.trans_le hle)
    rwa [hpc', hpc, hnext]

/-! ## Every transition -/

/-- Fetch finds its word, Decode cannot fail, and Execute is that of a dutiful word. -/
theorem Guarded.eventFree_stepState (h : Guarded c s) (hs : stepState c s = .next t) :
    EventFree t ∧ (t.cs = .fetch → t.pc.toNat < s.pm.length) := by
  have ⟨_, ⟨_, hraised⟩, _, _, hpc⟩ := h
  cases hcs : s.cs with
  | fetch =>
    have hw : s.progRead s.pc = some _ := List.getElem?_eq_getElem (hpc hcs)
    cases (stepState_of_fetch_some hcs hw).symm.trans hs
    exact ⟨⟨rfl, hraised⟩, nofun⟩
  | decode =>
    cases (stepState_of_decode hcs).symm.trans hs
    exact ⟨⟨rfl, hraised⟩, nofun⟩
  | execute =>
    obtain ⟨u, hu, hfree, hin⟩ := h.executeTransition hcs
    cases ((stepState_of_execute hcs).trans hu).symm.trans hs
    exact ⟨hfree, fun _ => hin⟩

theorem Guarded.stepState (h : Guarded c s) (hs : stepState c s = .next t) : Guarded c t := by
  have htransition : Transition s t := transition_of_stepState hs
  obtain ⟨hfree, hpc⟩ := h.eventFree_stepState hs
  obtain ⟨hdutiful, -, hfetched, hdecoded, -⟩ := h
  rw [← htransition.pm_eq] at hdutiful hpc
  exact ⟨hdutiful, hfree, htransition.fetchedConsistent hfetched, htransition.decodedConsistent hdecoded, hpc⟩

end

/-- Settles O50: a step has a next state, and is a chain of transitions that keep `Guarded`. -/
theorem dutifulSoftwareRunsEventFree : Obligations.DutifulSoftwareRunsEventFree := by
  intro c s h
  obtain ⟨t, ht⟩ := stepInstruction_next c s
  refine ⟨t, ht, ?_⟩
  exact stepUntilExecuted_induction (R := fun s t => Guarded c s → Guarded c t) (fun _ => id)
    (fun hst htu => htu ∘ hst) (fun hs hguarded => hguarded.stepState hs) 3 ht h

/-- Settles O51: the launch has the engine's invariant, and a dutiful program has a word for the first Fetch. -/
theorem dutifulLaunch : Obligations.DutifulLaunch := by
  intro c prog hdutiful
  obtain ⟨-, hfetched, hdecoded, -⟩ := inv_launch prog
  have ⟨hlen, _⟩ := hdutiful
  obtain ⟨hpos, -⟩ := programOk_iff.mp hlen
  exact ⟨hdutiful, ⟨rfl, rfl⟩, hfetched, hdecoded, fun _ => hpos⟩

end Sys2Proof.Machine
end
